-- ==== Sys2Proof/Word.lean ====
section
/-! DEFINITION. The three widths the spec gives its values (00_scope R14): every value is an unsigned
integer of a stated width. -/

namespace Sys2Proof

/-- `u8`: a byte of the wire, of a buffer or of an operand field (00_scope R14). -/
abbrev Byte := BitVec 8

/-- `u16`: an accumulator, a checksum, an `RData` value (00_scope R14). -/
abbrev Half := BitVec 16

/-- `u32`: a command word (00_scope R14, 30_encoding R55). -/
abbrev Word := BitVec 32

end Sys2Proof
end

