-- ==== Sys2Proof/Machine/Operands.lean ====
section
/-! DEFINITION. The five operand formats of the command word (30_encoding R55 to R57): where each operand
lies, which bits must be zero, and how a word is put together from its parts. -/

namespace Sys2Proof.Machine

/-- The operand formats of 30_encoding R56. -/
inductive Format where
  /-- No operand: w[23:0] must be zero. -/
  | n
  /-- Halfword: imm16 in w[15:0], w[23:16] must be zero. -/
  | h
  /-- Byte: b8 in w[7:0], w[23:8] must be zero. -/
  | b
  /-- Index and byte: idx in w[12:8], b8 in w[7:0], w[23:13] must be zero. -/
  | ib
  /-- Command, sequence, length in w[23:16], w[15:8], w[7:0]. -/
  | csl
  deriving DecidableEq, Repr

/-- `OP = w[31:28]` (30_encoding R55). -/
def opField (w : Word) : BitVec 4 := w.extractLsb' 28 4

/-- `RSV = w[27:24]`, which must be zero (30_encoding R55). -/
def rsvField (w : Word) : BitVec 4 := w.extractLsb' 24 4

/-- `imm16 = w[15:0]` (30_encoding R57). -/
def imm16Field (w : Word) : Half := w.extractLsb' 0 16

/-- `b8 = w[7:0]` (30_encoding R57). -/
def b8Field (w : Word) : Byte := w.extractLsb' 0 8

/-- `idx = w[12:8]` (30_encoding R57). -/
def idxField (w : Word) : BitVec 5 := w.extractLsb' 8 5

/-- `cmd = w[23:16]` (30_encoding R57). -/
def cmdField (w : Word) : Byte := w.extractLsb' 16 8

/-- `seq = w[15:8]` (30_encoding R57). -/
def seqField (w : Word) : Byte := w.extractLsb' 8 8

/-- `len = w[7:0]` (30_encoding R57). -/
def lenField (w : Word) : Byte := w.extractLsb' 0 8

/-- How many low bits of the word the format gives to operands (30_encoding R56); the bits above them, up to
bit 23, must be zero. -/
def Format.operandBits : Format → Nat
  | .n => 0
  | .h => 16
  | .b => 8
  | .ib => 13
  | .csl => 24

/-- The mask that a row of R58 with this format has: every bit but the operand bits (30_encoding R56, R58). -/
def Format.mask (f : Format) : Word := BitVec.allOnes 32 <<< f.operandBits

/-- A command word from its OP and its operand field, RSV zero (30_encoding R55). -/
def packWord (op : BitVec 4) (operands : BitVec 24) : Word := op ++ 0#4 ++ operands

/-- The operand field of format N (30_encoding R56). -/
def packN : BitVec 24 := 0#24

/-- The operand field of format H (30_encoding R56). -/
def packH (imm16 : Half) : BitVec 24 := 0#8 ++ imm16

/-- The operand field of format B (30_encoding R56). -/
def packB (b8 : Byte) : BitVec 24 := 0#16 ++ b8

/-- The operand field of format IB (30_encoding R56). -/
def packIB (idx : BitVec 5) (b8 : Byte) : BitVec 24 := 0#11 ++ idx ++ b8

/-- The operand field of format CSL (30_encoding R56). -/
def packCSL (cmd seq len : Byte) : BitVec 24 := cmd ++ seq ++ len

end Sys2Proof.Machine
end

