-- ==== Sys2Proof/Syntax.lean ====
section
/-! DEFINITION. The operations of FRAMER16 as syntax: one constructor per row of spec/opcode_table.json
(30_encoding R58). Each operand has exactly the width of its field (30_encoding R57), so no term of this type
holds an operand that the command word cannot carry. -/

namespace Sys2Proof

/-- An operation of the block: "what one valid command word does" (00_scope R19). -/
inductive Instr where
  /-- `NOP` (43_control R130). -/
  | nop
  /-- `CRC.LOAD imm16` (40_crc R84). -/
  | crcLoad (imm16 : Half)
  /-- `CRC.UPDATE b8` (40_crc R85). -/
  | crcUpdate (b8 : Byte)
  /-- `CRC.READ` (40_crc R86). -/
  | crcRead
  /-- `DEC.RESET` (42_decoder R106). -/
  | decReset
  /-- `DEC.FEED b8` (42_decoder R107). -/
  | decFeed (b8 : Byte)
  /-- `ENC.WRBUF idx, b8` (41_encoder R91). -/
  | encWrbuf (idx : BitVec 5) (b8 : Byte)
  /-- `ENC.START cmd, seq, len` (41_encoder R92); `len` takes all 256 values, and 33 to 255 are refused
  at execution, not at decode (30_encoding R57). -/
  | encStart (cmd seq len : Byte)
  /-- `ENC.NEXT` (41_encoder R93). -/
  | encNext
  /-- `STATUS.READ` (43_control R131). -/
  | statusRead
  /-- `STATUS.CLR` (43_control R132). -/
  | statusClr
  deriving DecidableEq, Repr

end Sys2Proof
end

