-- ==== Sys2Proof/Decode.lean ====
section
/-! DEFINITION. Decoding a command word by the opcode map, and encoding an operation (30_encoding R55 to R61).
Decoding is total: a word that no row matches is invalid, and the answer says by name why. -/

namespace Sys2Proof

/-- Why a word is invalid, in the order of 30_encoding R60's list. The reason is the model's name for the
case: the effect is the same for all three (43_control R133). DESIGN CHOICE, log entry 14, safe. -/
inductive InvalidWord where
  /-- OP is 0xB to 0xF. -/
  | reservedOp
  /-- OP is an operation's and RSV is not zero. -/
  | rsvNonZero
  /-- OP is an operation's, RSV is zero, and a must-be-zero bit of its format is set. -/
  | mustBeZeroSet
  deriving DecidableEq, Repr

/-- What decoding a word gives: `Valid(operation, operands) | Invalid` (30_encoding R59). -/
inductive Decoded where
  | valid (i : Instr)
  | invalid (why : InvalidWord)
  deriving DecidableEq, Repr

/-- A row of the opcode map (30_encoding R58): `bits` is its column "match"; `read` takes the operands of its
format from the word (R57). -/
structure OpRow where
  mnemonic : String
  format : Machine.Format
  bits : Word
  mask : Word
  read : Word → Instr

/-- The opcode map of 30_encoding R58, row by row. -/
def opRows : List OpRow :=
  [ ⟨"NOP", .n, 0x00000000#32, 0xFFFFFFFF#32, fun _ => .nop⟩,
    ⟨"CRC.LOAD", .h, 0x10000000#32, 0xFFFF0000#32, fun w => .crcLoad (Machine.imm16Field w)⟩,
    ⟨"CRC.UPDATE", .b, 0x20000000#32, 0xFFFFFF00#32, fun w => .crcUpdate (Machine.b8Field w)⟩,
    ⟨"CRC.READ", .n, 0x30000000#32, 0xFFFFFFFF#32, fun _ => .crcRead⟩,
    ⟨"DEC.RESET", .n, 0x40000000#32, 0xFFFFFFFF#32, fun _ => .decReset⟩,
    ⟨"DEC.FEED", .b, 0x50000000#32, 0xFFFFFF00#32, fun w => .decFeed (Machine.b8Field w)⟩,
    ⟨"ENC.WRBUF", .ib, 0x60000000#32, 0xFFFFE000#32,
      fun w => .encWrbuf (Machine.idxField w) (Machine.b8Field w)⟩,
    ⟨"ENC.START", .csl, 0x70000000#32, 0xFF000000#32,
      fun w => .encStart (Machine.cmdField w) (Machine.seqField w) (Machine.lenField w)⟩,
    ⟨"ENC.NEXT", .n, 0x80000000#32, 0xFFFFFFFF#32, fun _ => .encNext⟩,
    ⟨"STATUS.READ", .n, 0x90000000#32, 0xFFFFFFFF#32, fun _ => .statusRead⟩,
    ⟨"STATUS.CLR", .n, 0xA0000000#32, 0xFFFFFFFF#32, fun _ => .statusClr⟩ ]

/-- The name of an invalid word's fault, from its fields (30_encoding R60). -/
def invalidReason (w : Word) : InvalidWord :=
  if 0xB#4 ≤ Machine.opField w then .reservedOp
  else if Machine.rsvField w ≠ 0#4 then .rsvNonZero
  else .mustBeZeroSet

/-- The loop of 30_encoding R59 over the rows still to try: the first row with `(w & mask) == match` gives the
operation; no row left, the word is invalid. -/
def decodeBy (w : Word) : List OpRow → Decoded
  | [] => .invalid (invalidReason w)
  | r :: rest => if w &&& r.mask = r.bits then .valid (r.read w) else decodeBy w rest

/-- Decoding a command word (30_encoding R59). -/
def decode (w : Word) : Decoded := decodeBy w opRows

/-- The command word of an operation (30_encoding R55, R56, R58). -/
def encode : Instr → Word
  | .nop => Machine.packWord 0x0#4 Machine.packN
  | .crcLoad imm16 => Machine.packWord 0x1#4 (Machine.packH imm16)
  | .crcUpdate b8 => Machine.packWord 0x2#4 (Machine.packB b8)
  | .crcRead => Machine.packWord 0x3#4 Machine.packN
  | .decReset => Machine.packWord 0x4#4 Machine.packN
  | .decFeed b8 => Machine.packWord 0x5#4 (Machine.packB b8)
  | .encWrbuf idx b8 => Machine.packWord 0x6#4 (Machine.packIB idx b8)
  | .encStart cmd seq len => Machine.packWord 0x7#4 (Machine.packCSL cmd seq len)
  | .encNext => Machine.packWord 0x8#4 Machine.packN
  | .statusRead => Machine.packWord 0x9#4 Machine.packN
  | .statusClr => Machine.packWord 0xA#4 Machine.packN

/-- The operation of a decoded word, where it is valid. -/
def Decoded.toOption : Decoded → Option Instr
  | .valid i => some i
  | .invalid _ => none

/-- The command word whose lowest `nbits` bits are those of `w`, every bit above them zero. Bit 0 of the
table's numbering is bit 0 of the word: a command word is one 32-bit word without byte order (20_memory R47).
DEDUCED, log entry 15, safe. -/
def tableWord (nbits w : Nat) : Word := BitVec.ofNat 32 (w % 2 ^ nbits)

/-- The operation that the decoder reads from a row's bits as spec/opcode_table.json numbers them. -/
def decodeTableWord (nbits w : Nat) : Option Instr := (decode (tableWord nbits w)).toOption

end Sys2Proof
end

