-- ==== Sys2Proof/Config.lean ====
section
/-! DEFINITION. The implementation parameters of 00_scope R8 to R13, each under its own name, so that a
corrected value changes one definition (93_implementation_defined U4, U10). `PORT_PROTOCOL` (R13) is not
here: it is open, and no rule depends on it. -/

namespace Sys2Proof.Config

/-- `MAXLEN`: the largest payload length of a frame (00_scope R8). -/
def maxLen : Nat := 32

/-- The number of bytes of ENC_BUF (00_scope, summary of parameters; 10_state R31). -/
def encBufSize : Nat := maxLen

/-- `POLY`: the checksum's polynomial, neither reflected nor XORed at the end (00_scope R9). -/
def poly : Half := 0x1021#16

/-- `CRC_INIT`: what the decoder and the encoder start their checksums from (00_scope R10). DESIGN CHOICE, log
entry 7: the spec's default, unsafe for a block with another value. -/
def crcInit : Half := 0xFFFF#16

/-- The reset value of CRC_ACC, which R37 gives as a number of its own and not as CRC_INIT (10_state R37). -/
def crcAccReset : Half := 0xFFFF#16

/-- `SYNC0`: the first byte of a frame (00_scope R11). -/
def sync0 : Byte := 0xAA#8

/-- `SYNC1`: the second byte of a frame (00_scope R11). -/
def sync1 : Byte := 0x55#8

end Sys2Proof.Config
end

