-- ==== Sys2Proof/Machine/State.lean ====
section
/-! DEFINITION. The architectural state of FRAMER16 (10_state R20), the response record (30_encoding R67, R72),
the host's input, and the state after reset (10_state R37). -/

namespace Sys2Proof.Machine

/-- DEC_STATE, by the names and in the order of 10_state R24; every 3-bit value names a state. -/
inductive DecState where
  | seekSync0
  | seekSync1
  | commandByte
  | sequenceByte
  | lengthByte
  | payloadByte
  | checksumHigh
  | checksumLow
  deriving DecidableEq, Repr

/-- ENC_STATE, by the names and in the order of 10_state R29. The codes 9 to 15 name no state: no step
writes them. -/
inductive EncState where
  | idle
  | sync0
  | sync1
  | cmd
  | seq
  | len
  | payload
  | crcHi
  | crcLo
  deriving DecidableEq, Repr

/-- ENC_BUF as (index, byte) cells (20_memory R40), in one canonical form (`Memory.wf`): indices rising, and
no cell with the byte 0x00 that an unlisted index reads as (10_state R37). The form is a DESIGN CHOICE, log entry 8,
safe. -/
abbrev Memory := List Host.Cell

/-- The decoder's registers (10_state R20, R24 to R27). -/
structure Decoder where
  /-- DEC_STATE -/
  state : DecState
  /-- DEC_CMD -/
  cmd : Byte
  /-- DEC_SEQ -/
  seq : Byte
  /-- DEC_LEN -/
  len : Byte
  /-- DEC_BUF, the payload received so far, of length 0..32 (`DecInv`). -/
  buf : List Byte
  /-- DEC_CRC -/
  crc : Half
  /-- DEC_RXCRC -/
  rxCrc : Half
  deriving DecidableEq, Repr

/-- The encoder's registers (10_state R20, R29 to R31). -/
structure Encoder where
  /-- ENC_STATE -/
  state : EncState
  /-- ENC_CMD -/
  cmd : Byte
  /-- ENC_SEQ -/
  seq : Byte
  /-- ENC_LEN -/
  len : Byte
  /-- ENC_IDX, 6 bits, 0..32 (`EncInv`). -/
  idx : BitVec 6
  /-- ENC_CRC -/
  crc : Half
  /-- ENC_BUF -/
  buf : Memory
  deriving DecidableEq, Repr

/-- The decoded-frame record (30_encoding R67). -/
structure Frame where
  cmd : Byte
  seq : Byte
  len : Byte
  payload : List Byte
  crc : Half
  deriving DecidableEq, Repr

/-- The contents of a checksum-mismatch report (30_encoding R72, 42_decoder R117). -/
structure MismatchInfo where
  cmd : Byte
  seq : Byte
  len : Byte
  rxCrc : Half
  calcCrc : Half
  deriving DecidableEq, Repr

/-- The response of a command step (30_encoding R72). -/
inductive Resp where
  | none
  /-- CRC.READ, STATUS.READ -/
  | rdata (v : Half)
  /-- DEC.FEED that completes a valid frame -/
  | frameOut (f : Frame)
  /-- DEC.FEED that completes a frame whose checksum fails -/
  | mismatch (m : MismatchInfo)
  /-- ENC.NEXT while the encoder is busy -/
  | tx (b : Byte)
  deriving DecidableEq, Repr

/-- What the host presents for one step: a command word (30_encoding R55), or the reset input
(70_reset_and_hazards R160). -/
inductive PortInput where
  | word (w : Word)
  | reset
  deriving DecidableEq, Repr

/-- The block's registers (10_state R20), and beside them the model's own two fields: the response just given
and what the host has still to present. -/
structure State where
  /-- CRC_ACC -/
  crcAcc : Half
  /-- DEC_* -/
  dec : Decoder
  /-- ENC_* -/
  enc : Encoder
  /-- STATUS_EOVR, sticky -/
  eovr : Bool
  /-- STATUS_ILL, sticky -/
  ill : Bool
  /-- The response of the step just taken, on the port until the next step and not stored beyond it
  (70_reset_and_hazards R172); `none` where that step gave no response at all. The model's own field: DESIGN CHOICE, log entry 3, safe. -/
  resp : Option Resp
  /-- What the host has still to present, the next one first (10_state R22). The model's own field: the
  host's command stream is input, not state of the block (R20). DESIGN CHOICE, log entries 1 and 11, safe. -/
  input : List PortInput
  deriving DecidableEq, Repr

/-- Why the machine stops with a fault. FRAMER16 has no fault of its own (60_exceptions R140). -/
inductive Fault where
  /-- Raised by `memRead` for an index above 31, which ENC.NEXT asks for only in states no run reaches
  (20_memory R41, 10_state R32). DEDUCED, log entry 5, safe: the model stops where the spec gives no byte. -/
  | encBufIndex
  deriving DecidableEq, Repr

/-- The reason of `Refused(reason)`: the closed enumeration with the single constructor EncOverlength
(43_control R134, 93_implementation_defined U1). -/
inductive RefuseReason where
  /-- Raised by ENC.START with `len > 32` while the encoder is idle (41_encoder R92): the behaviour is undefined in
  the source. Safe: the run ends and nothing is claimed of it. -/
  | encOverlength
  deriving DecidableEq, Repr

/-- Why a step of the model is refused: the block's own refusal, or, beside it, the host interface's name for an
operation without a meaning (DESIGN CHOICE, log entry 9, safe). -/
inductive Refusal where
  /-- Raised by no step, since every operation has its meaning (`Laws/Run.lean`, `step_refused`). Safe: such a step
  has no next state. -/
  | notModelled (mnemonic : String)
  /-- `Refuse(reason)` (00_scope R17): raised by ENC.START, for the reasons of `RefuseReason` only. Safe: there is no
  successor state (43_control R134). -/
  | refuse (reason : RefuseReason)
  deriving DecidableEq, Repr

/-- The decoder right after reset (10_state R37). -/
def Decoder.reset : Decoder :=
  { state := .seekSync0, cmd := 0x00#8, seq := 0x00#8, len := 0x00#8, buf := [], crc := Config.crcInit,
    rxCrc := 0x0000#16 }

/-- The encoder right after reset (10_state R37): ENC_BUF all 0x00, so no cell is listed. -/
def Encoder.reset : Encoder :=
  { state := .idle, cmd := 0x00#8, seq := 0x00#8, len := 0x00#8, idx := 0#6, crc := Config.crcInit, buf := [] }

/-- The block right after reset (10_state R37), with no response given and nothing presented. -/
def State.reset : State :=
  { crcAcc := Config.crcAccReset, dec := Decoder.reset, enc := Encoder.reset, eovr := false, ill := false,
    resp := none, input := [] }

end Sys2Proof.Machine
end

