-- ==== Sys2Proof/Machine/Ops.lean ====
section
/-! DEFINITION. The named operations every unit shares: the checksum functions (40_crc), the memory primitives on
ENC_BUF (20_memory R41), the response (00_scope R17), and the reset step (70_reset_and_hazards R160). FRAMER16 takes no
exception and returns from none (60_exceptions R144, R145), so there is no such operation here. -/

namespace Sys2Proof.Machine

/-! ### Checksum (40_crc R80, R81) -/

/-- One of the 8 rounds of CrcStep: bit 15 is tested before the shift, and the shift drops it (40_crc R80). -/
def crcRound (a : Half) : Half :=
  if a.getLsbD 15 then (a <<< 1) ^^^ Config.poly else a <<< 1

/-- `n` rounds. -/
def crcRounds : Nat → Half → Half
  | 0, a => a
  | n + 1, a => crcRounds n (crcRound a)

/-- `CrcStep(acc, b)`: fold one byte into an accumulator (40_crc R80). -/
def crcStep (acc : Half) (b : Byte) : Half :=
  crcRounds 8 (acc ^^^ (b.zeroExtend 16 <<< 8))

/-- `CRC16(acc, s)`: fold a sequence, left to right (40_crc R81). -/
def crc16 (acc : Half) : List Byte → Half
  | [] => acc
  | b :: rest => crc16 (crcStep acc b) rest

/-- `v[15:8]`, the checksum byte that goes on the wire first (20_memory R45). -/
def hiByte (v : Half) : Byte := v.extractLsb' 8 8

/-- `v[7:0]`, the checksum byte that goes on the wire second (20_memory R45). -/
def loByte (v : Half) : Byte := v.extractLsb' 0 8

/-! ### ENC_BUF (20_memory R40, R41) -/

/-- What an unlisted index of ENC_BUF reads as: its reset contents (10_state R37). -/
def resetByte : Byte := 0x00#8

/-- The byte at an index, listed or not. -/
def cellAt : Memory → Nat → Byte
  | [], _ => resetByte
  | (a, v) :: rest, i => if a = i then v else cellAt rest i

/-- Put a byte at an index, keeping the canonical form: a byte equal to what an unlisted index reads as
removes the cell. -/
def putCell : Memory → Nat → Byte → Memory
  | [], i, v => if v = resetByte then [] else [(i, v)]
  | (a, u) :: rest, i, v =>
    if i < a then (if v = resetByte then (a, u) :: rest else (i, v) :: (a, u) :: rest)
    else if i = a then (if v = resetByte then rest else (i, v) :: rest)
    else (a, u) :: putCell rest i v

/-- Every cell's index is at least `lo` and within ENC_BUF, indices rise strictly, and no cell holds the
byte of an unlisted index. -/
def cellsFrom (lo : Nat) : Memory → Bool
  | [] => true
  | (a, v) :: rest => decide (lo ≤ a) && decide (a < Config.encBufSize) && (v != resetByte) && cellsFrom (a + 1) rest

/-- The canonical form of ENC_BUF: equal contents are equal lists. -/
def Memory.wf (m : Memory) : Bool := cellsFrom 0 m

/-- `MemRead(i, 1)`: the byte at index `i` (20_memory R41). No value outside 0..31, where R41 says that an index
cannot arise: DEDUCED, log entry 5, safe. -/
def memRead (m : Memory) (i : Nat) : Option Byte :=
  if i < Config.encBufSize then some (cellAt m i) else none

/-- `MemWrite(i, 1, v)`: a 5-bit index is always within 0..31 (20_memory R41). -/
def memWrite (m : Memory) (i : BitVec 5) (v : Byte) : Memory := putCell m i.toNat v

/-- `ENC_BUF[0..n)` as a byte sequence (00_scope R16). -/
def bufTake (m : Memory) (n : Nat) : List Byte := (List.range n).map (cellAt m)

/-! ### Responding, holding, resetting -/

/-- `respond(r)`: the response of the current step (00_scope R17). -/
def respond (r : Resp) (s : State) : State := { s with resp := some r }

/-- The kind of a response as a 3-bit tag (30_encoding R73), which no step uses: the port's signals are left out,
DESIGN CHOICE, log entry 10, safe. -/
def respTag : Resp → BitVec 3
  | .none => 0#3
  | .rdata _ => 1#3
  | .frameOut _ => 2#3
  | .mismatch _ => 3#3
  | .tx _ => 4#3

/-- The encoder is busy (10_state R29). -/
def encBusy (e : Encoder) : Bool := decide (e.state ≠ .idle)

/-- `DecInit()`: every decoder register in its initial state (42_decoder R105). -/
def decInit : Decoder :=
  { state := .seekSync0, cmd := 0x00#8, seq := 0x00#8, len := 0x00#8, buf := [], crc := Config.crcInit,
    rxCrc := 0x0000#16 }

/-- The reset step (70_reset_and_hazards R160): every register at its reset value, no response. What the host still has to
present is the host's and stays. DEDUCED, log entry 4, safe. -/
def resetStep (s : State) : State := { State.reset with input := s.input }

/-- No word and no reset is presented: the block holds its state (60_exceptions R152), and the last step's
response is over (70_reset_and_hazards R172). DESIGN CHOICE, log entry 2, safe. -/
def holdStep (s : State) : State := { s with resp := none }

end Sys2Proof.Machine
end

