-- ==== Sys2Proof/Machine/Flags.lean ====
section
/-! DEFINITION. The STATUS register and its two sticky bits, the only flags of FRAMER16 (10_state R33, R34). -/

namespace Sys2Proof.Machine

/-- `DSTATE_ENC`: the code of a decoder state (10_state R24). -/
def dstateEnc : DecState → BitVec 3
  | .seekSync0 => 0#3
  | .seekSync1 => 1#3
  | .commandByte => 2#3
  | .sequenceByte => 3#3
  | .lengthByte => 4#3
  | .payloadByte => 5#3
  | .checksumHigh => 6#3
  | .checksumLow => 7#3

/-- `ESTATE_ENC`: the code of an encoder state (10_state R29). -/
def estateEnc : EncState → BitVec 4
  | .idle => 0#4
  | .sync0 => 1#4
  | .sync1 => 2#4
  | .cmd => 3#4
  | .seq => 4#4
  | .len => 5#4
  | .payload => 6#4
  | .crcHi => 7#4
  | .crcLo => 8#4

/-- DCNT: the length of DEC_BUF as the 6-bit count of 10_state R26, R33. A length above 63, which no run
reaches, is taken modulo 64: DESIGN CHOICE, log entry 6, safe. -/
def dcnt (d : Decoder) : BitVec 6 := BitVec.ofNat 6 d.buf.length

/-- The STATUS word (10_state R33, 43_control R131). -/
def statusWord (s : State) : Half :=
  (dstateEnc s.dec.state).zeroExtend 16
    ||| ((estateEnc s.enc.state).zeroExtend 16 <<< 4)
    ||| ((dcnt s.dec).zeroExtend 16 <<< 8)
    ||| ((BitVec.ofBool s.eovr).zeroExtend 16 <<< 14)
    ||| ((BitVec.ofBool s.ill).zeroExtend 16 <<< 15)

/-- `STATUS_EOVR <- 1` (10_state R33). -/
def setEovr (s : State) : State := { s with eovr := true }

/-- `STATUS_ILL <- 1` (10_state R33). -/
def setIll (s : State) : State := { s with ill := true }

/-- `STATUS_EOVR <- 0; STATUS_ILL <- 0` (43_control R132). -/
def clearSticky (s : State) : State := { s with eovr := false, ill := false }

end Sys2Proof.Machine
end

