-- ==== Sys2Proof/Machine/Control.lean ====
section
/-! DEFINITION. The control and status operations, and the effect of an invalid word (43_control R130 to R133). -/

namespace Sys2Proof.Machine

/-- `NOP` (43_control R130). -/
def execNop (s : State) : Host.Outcome State Fault Refusal := .next (respond .none s)

/-- `STATUS.READ` (43_control R131). -/
def execStatusRead (s : State) : Host.Outcome State Fault Refusal := .next (respond (.rdata (statusWord s)) s)

/-- `STATUS.CLR` (43_control R132). -/
def execStatusClr (s : State) : Host.Outcome State Fault Refusal := .next (respond .none (clearSticky s))

/-- An invalid command word sets STATUS_ILL and changes nothing else (43_control R133). -/
def invalidWord (s : State) : State := respond .none (setIll s)

end Sys2Proof.Machine
end

