-- ==== Sys2Proof/Machine/Crc.lean ====
section
/-! DEFINITION. The CRC unit's operations (40_crc R84 to R86). -/

namespace Sys2Proof.Machine

/-- `CRC.LOAD imm16` (40_crc R84). -/
def execCrcLoad (imm16 : Half) (s : State) : Host.Outcome State Fault Refusal :=
  .next (respond .none { s with crcAcc := imm16 })

/-- `CRC.UPDATE b8` (40_crc R85). -/
def execCrcUpdate (b8 : Byte) (s : State) : Host.Outcome State Fault Refusal :=
  .next (respond .none { s with crcAcc := crcStep s.crcAcc b8 })

/-- `CRC.READ` (40_crc R86). -/
def execCrcRead (s : State) : Host.Outcome State Fault Refusal :=
  .next (respond (.rdata s.crcAcc) s)

end Sys2Proof.Machine
end

