-- ==== Sys2Proof/Machine/Decoder.lean ====
section
/-! DEFINITION. The frame decoder: DEC.RESET and the eight-state machine of DEC.FEED (42_decoder R105 to R115). -/

namespace Sys2Proof.Machine

/-- DEC.FEED in SEEK_SYNC0 (42_decoder R108). -/
def feedSeekSync0 (b : Byte) (d : Decoder) : Decoder × Resp :=
  if b = Config.sync0 then ({ d with state := .seekSync1 }, .none) else (d, .none)

/-- DEC.FEED in SEEK_SYNC1 (42_decoder R109; 90_conflicts C1): another 0xAA goes back to SEEK_SYNC0 too. -/
def feedSeekSync1 (b : Byte) (d : Decoder) : Decoder × Resp :=
  if b = Config.sync1 then ({ d with crc := Config.crcInit, state := .commandByte }, .none)
  else ({ d with state := .seekSync0 }, .none)

/-- DEC.FEED in COMMAND_BYTE (42_decoder R110). -/
def feedCommandByte (b : Byte) (d : Decoder) : Decoder × Resp :=
  ({ d with cmd := b, crc := crcStep d.crc b, state := .sequenceByte }, .none)

/-- DEC.FEED in SEQUENCE_BYTE (42_decoder R111). -/
def feedSequenceByte (b : Byte) (d : Decoder) : Decoder × Resp :=
  ({ d with seq := b, crc := crcStep d.crc b, state := .lengthByte }, .none)

/-- DEC.FEED in LENGTH_BYTE (42_decoder R112): a length above 32 is a silent drop. -/
def feedLengthByte (b : Byte) (d : Decoder) : Decoder × Resp :=
  if b.toNat > Config.maxLen then (decInit, .none)
  else if b = 0x00#8 then ({ d with len := b, crc := crcStep d.crc b, state := .checksumHigh }, .none)
  else ({ d with len := b, crc := crcStep d.crc b, buf := [], state := .payloadByte }, .none)

/-- DEC.FEED in PAYLOAD_BYTE (42_decoder R113): the length is compared after the append. -/
def feedPayloadByte (b : Byte) (d : Decoder) : Decoder × Resp :=
  ({ d with
      buf := d.buf ++ [b]
      crc := crcStep d.crc b
      state := if (d.buf ++ [b]).length = d.len.toNat then .checksumHigh else .payloadByte }, .none)

/-- DEC.FEED in CHECKSUM_HIGH (42_decoder R114): the whole register is assigned, the byte is not folded. -/
def feedChecksumHigh (b : Byte) (d : Decoder) : Decoder × Resp :=
  ({ d with rxCrc := b.zeroExtend 16 <<< 8, state := .checksumLow }, .none)

/-- DEC.FEED in CHECKSUM_LOW (42_decoder R115): the record is captured before DecInit. -/
def feedChecksumLow (b : Byte) (d : Decoder) : Decoder × Resp :=
  let rx := d.rxCrc ||| b.zeroExtend 16
  if rx = d.crc then
    (decInit, .frameOut { cmd := d.cmd, seq := d.seq, len := d.len, payload := d.buf, crc := d.crc })
  else
    (decInit, .mismatch { cmd := d.cmd, seq := d.seq, len := d.len, rxCrc := rx, calcCrc := d.crc })

/-- One received byte: dispatch on DEC_STATE to exactly one of R108 to R115 (42_decoder R107). -/
def feedByte (b : Byte) (d : Decoder) : Decoder × Resp :=
  match d.state with
  | .seekSync0 => feedSeekSync0 b d
  | .seekSync1 => feedSeekSync1 b d
  | .commandByte => feedCommandByte b d
  | .sequenceByte => feedSequenceByte b d
  | .lengthByte => feedLengthByte b d
  | .payloadByte => feedPayloadByte b d
  | .checksumHigh => feedChecksumHigh b d
  | .checksumLow => feedChecksumLow b d

/-- `DEC.RESET` (42_decoder R106). -/
def execDecReset (s : State) : Host.Outcome State Fault Refusal :=
  .next (respond .none { s with dec := decInit })

/-- `DEC.FEED b8` (42_decoder R107). -/
def execDecFeed (b8 : Byte) (s : State) : Host.Outcome State Fault Refusal :=
  .next (respond (feedByte b8 s.dec).2 { s with dec := (feedByte b8 s.dec).1 })

end Sys2Proof.Machine
end

