-- ==== Sys2Proof/Machine/Encoder.lean ====
section
/-! DEFINITION. The encoder: the staging buffer, the start of a frame and the nine-state serializer of ENC.NEXT
(41_encoder R91 to R102). -/

namespace Sys2Proof.Machine

/-- `ENC.WRBUF idx, b8` (41_encoder R91): ignored, with STATUS_EOVR set, while the encoder is busy. -/
def execEncWrbuf (idx : BitVec 5) (b8 : Byte) (s : State) : Host.Outcome State Fault Refusal :=
  if encBusy s.enc then .next (respond .none (setEovr s))
  else .next (respond .none { s with enc := { s.enc with buf := memWrite s.enc.buf idx b8 } })

/-- The encoder with a frame latched and its first byte next (41_encoder R92). -/
def startFrame (cmd seq len : Byte) (e : Encoder) : Encoder :=
  { e with cmd := cmd, seq := seq, len := len, idx := 0#6, crc := Config.crcInit, state := .sync0 }

/-- `ENC.START cmd, seq, len` (41_encoder R92): the busy check comes before the length check
(60_exceptions R142). -/
def execEncStart (cmd seq len : Byte) (s : State) : Host.Outcome State Fault Refusal :=
  if encBusy s.enc then .next (respond .none (setEovr s))
  else if len.toNat > Config.maxLen then .refused (.refuse .encOverlength)
  else .next (respond .none { s with enc := startFrame cmd seq len s.enc })

/-- ENC.NEXT in ENC_SYNC0 (41_encoder R95). -/
def nextSync0 (e : Encoder) : Encoder × Resp := ({ e with state := .sync1 }, .tx Config.sync0)

/-- ENC.NEXT in ENC_SYNC1 (41_encoder R96): the sync bytes are not folded. -/
def nextSync1 (e : Encoder) : Encoder × Resp := ({ e with state := .cmd }, .tx Config.sync1)

/-- ENC.NEXT in ENC_CMD (41_encoder R97). -/
def nextCmd (e : Encoder) : Encoder × Resp :=
  ({ e with crc := crcStep e.crc e.cmd, state := .seq }, .tx e.cmd)

/-- ENC.NEXT in ENC_SEQ (41_encoder R98). -/
def nextSeq (e : Encoder) : Encoder × Resp :=
  ({ e with crc := crcStep e.crc e.seq, state := .len }, .tx e.seq)

/-- ENC.NEXT in ENC_LEN (41_encoder R99). -/
def nextLen (e : Encoder) : Encoder × Resp :=
  ({ e with crc := crcStep e.crc e.len, state := if e.len = 0x00#8 then .crcHi else .payload }, .tx e.len)

/-- ENC.NEXT in ENC_PAYLOAD, with `b` the byte read at ENC_IDX (41_encoder R100): ENC_IDX is compared with
ENC_LEN after the increment. -/
def nextPayload (b : Byte) (e : Encoder) : Encoder × Resp :=
  ({ e with
      crc := crcStep e.crc b
      idx := e.idx + 1#6
      state := if (e.idx + 1#6).toNat = e.len.toNat then .crcHi else .payload }, .tx b)

/-- ENC.NEXT in ENC_CRCHI (41_encoder R101). -/
def nextCrcHi (e : Encoder) : Encoder × Resp := ({ e with state := .crcLo }, .tx (hiByte e.crc))

/-- ENC.NEXT in ENC_CRCLO (41_encoder R102). -/
def nextCrcLo (e : Encoder) : Encoder × Resp := ({ e with state := .idle }, .tx (loByte e.crc))

/-- One ENC.NEXT: dispatch on ENC_STATE to exactly one of R94 to R102 (41_encoder R93). There is no answer
only where MemRead has none (20_memory R41). -/
def encAdvance (e : Encoder) : Option (Encoder × Resp) :=
  match e.state with
  | .idle => some (e, .none)
  | .sync0 => some (nextSync0 e)
  | .sync1 => some (nextSync1 e)
  | .cmd => some (nextCmd e)
  | .seq => some (nextSeq e)
  | .len => some (nextLen e)
  | .payload => (memRead e.buf e.idx.toNat).map (fun b => nextPayload b e)
  | .crcHi => some (nextCrcHi e)
  | .crcLo => some (nextCrcLo e)

/-- `ENC.NEXT` (41_encoder R93). -/
def execEncNext (s : State) : Host.Outcome State Fault Refusal :=
  match encAdvance s.enc with
  | some (e, r) => .next (respond r { s with enc := e })
  | none => .fault .encBufIndex

end Sys2Proof.Machine
end

