-- ==== Sys2Proof/Machine/Dispatch.lean ====
section
/-! DEFINITION. One arm per operation (30_encoding R58). -/

namespace Sys2Proof.Machine

def exec (i : Instr) (s : State) : Host.Outcome State Fault Refusal :=
  match i with
  | .nop => Sys2Proof.Machine.execNop s
  | .crcLoad imm16 => Sys2Proof.Machine.execCrcLoad imm16 s
  | .crcUpdate b8 => Sys2Proof.Machine.execCrcUpdate b8 s
  | .crcRead => Sys2Proof.Machine.execCrcRead s
  | .decReset => Sys2Proof.Machine.execDecReset s
  | .decFeed b8 => Sys2Proof.Machine.execDecFeed b8 s
  | .encWrbuf idx b8 => Sys2Proof.Machine.execEncWrbuf idx b8 s
  | .encStart cmd seq len => Sys2Proof.Machine.execEncStart cmd seq len s
  | .encNext => Sys2Proof.Machine.execEncNext s
  | .statusRead => Sys2Proof.Machine.execStatusRead s
  | .statusClr => Sys2Proof.Machine.execStatusClr s

end Sys2Proof.Machine
end

