-- ==== Sys2Proof/Machine/Port.lean ====
section
/-! DEFINITION. The command port: what one step does with what the host presents (00_scope R13, R18). -/

namespace Sys2Proof.Machine

/-- A command step: a valid word runs its operation, an invalid one sets STATUS_ILL, decided by decode alone
(60_exceptions R142). -/
def wordStep (w : Word) (s : State) : Host.Outcome State Fault Refusal :=
  match decode w with
  | .valid i => exec i s
  | .invalid _ => .next (invalidWord s)

/-- One step: take what the host presents next, a word (00_scope R18) or the reset input (70_reset_and_hazards R160); with
nothing presented the block holds its state (60_exceptions R152). -/
def portStep (s : State) : Host.Outcome State Fault Refusal :=
  match s.input with
  | [] => .next (holdStep s)
  | .reset :: rest => .next (resetStep { s with input := rest })
  | .word w :: rest => wordStep w { s with input := rest }

/-- The host presents a word as the very next input. -/
def presentWord (w : Word) (s : State) : State := { s with input := .word w :: s.input }

end Sys2Proof.Machine
end

