-- ==== Sys2Proof/Machine/Step.lean ====
section
/-! DEFINITION. The step of the machine, and a state whose next step runs a given word. -/

namespace Sys2Proof.Machine

/-- One step of FRAMER16 (00_scope R18). -/
def step (s : State) : Host.Outcome State Fault Refusal := portStep s

/-- `s` with the word of `nbits` bits `w` presented next: the block fetches nothing (10_state R22), so its next
instruction is the word the host presents next. -/
def State.withFetchWord (s : State) (nbits w : Nat) : State := presentWord (tableWord nbits w) s

end Sys2Proof.Machine
end

