-- ==== Sys2Proof/Machine/Runner.lean ====
section
/-! DEFINITION. The host's side of a sequence of operations: run them in order and collect each step's response
(10_state R22, 70_reset_and_hazards R172), and the pseudo-instructions that name such sequences (30_encoding R70). -/

namespace Sys2Proof.Machine

/-- Run operations one a step, collecting the response of each (10_state R22). There is no answer where a step
gives no next state. -/
def runOps : List Instr → State → Option (State × List (Option Resp))
  | [], s => some (s, [])
  | i :: rest, s =>
    match exec i s with
    | .next t => (runOps rest t).map (fun u => (u.1, t.resp :: u.2))
    | .fault _ => none
    | .refused _ => none

/-- The responses of the ENC.NEXT steps among the responses of a run (41_encoder R103). -/
def nextResponses (ops : List Instr) (resps : List (Option Resp)) : List (Option Resp) :=
  ((ops.zip resps).filter (fun x => x.1 == .encNext)).map (·.2)

/-- The bytes transmitted, in order, among the responses of a run. -/
def txBytes (resps : List (Option Resp)) : List Byte :=
  resps.filterMap (fun r => match r with | some (.tx b) => some b | _ => none)

/-! ### Pseudo-instructions (30_encoding R70) -/

/-- `CRC.UPDATES b0, ..., b(n-1)`. -/
def crcUpdates (bs : List Byte) : List Instr := bs.map Instr.crcUpdate

/-- `CRC.CALC init, [b0, ..., b(n-1)]`. -/
def crcCalc (init : Half) (bs : List Byte) : List Instr := .crcLoad init :: (crcUpdates bs ++ [.crcRead])

/-- `DEC.FEEDS b0, ..., b(n-1)`. -/
def decFeeds (bs : List Byte) : List Instr := bs.map Instr.decFeed

/-- The ENC.WRBUF lines of a payload from index `k` on. -/
def encLoadFrom (k : Nat) : List Byte → List Instr
  | [] => []
  | b :: rest => .encWrbuf (BitVec.ofNat 5 k) b :: encLoadFrom (k + 1) rest

/-- `ENC.LOAD [p0, ..., p(n-1)]`, which requires n <= 32. -/
def encLoad (p : List Byte) : Option (List Instr) :=
  if p.length ≤ Config.maxLen then some (encLoadFrom 0 p) else none

/-- `ENC.FRAME cmd, seq, [p0, ..., p(n-1)]`, which requires n <= 32 (and, when it runs, the encoder idle). -/
def encFrame (cmd seq : Byte) (p : List Byte) : Option (List Instr) :=
  (encLoad p).map (fun load =>
    load ++ [.encStart cmd seq (BitVec.ofNat 8 p.length)] ++ List.replicate (7 + p.length) .encNext)

end Sys2Proof.Machine
end

