-- ==== Sys2Proof/WellFormed.lean ====
section
/-! DEFINITION. Well-formedness is where the spec puts a range check: on the SOURCE LINE, whose operands are
plain numbers ("an immediate wider than its field, or an `idx` above 31", 30_encoding R69). `SourceOp` is such a
line, `SourceOp.wellFormed` its check; an `Instr` is well formed when the line that writes it is. -/

namespace Sys2Proof

/-- A source line of 30_encoding R69 with its operands as the numbers written, before the range checks;
`word` is `.word v`, the only way to write an invalid word. -/
inductive SourceOp where
  | nop
  | crcLoad (imm16 : Nat)
  | crcUpdate (b8 : Nat)
  | crcRead
  | decReset
  | decFeed (b8 : Nat)
  | encWrbuf (idx b8 : Nat)
  | encStart (cmd seq len : Nat)
  | encNext
  | statusRead
  | statusClr
  | word (v : Nat)
  deriving DecidableEq, Repr

/-- Whether `n` fits an unsigned field of `w` bits (30_encoding R57, R69). -/
def fitsField (w n : Nat) : Bool := decide (n < 2 ^ w)

/-- The range checks of 30_encoding R69: every operand fits the field its format gives it (R56); `len` is
checked against its 8 bits only (R57). -/
def SourceOp.wellFormed : SourceOp → Bool
  | .nop | .crcRead | .decReset | .encNext | .statusRead | .statusClr => true
  | .crcLoad imm16 => fitsField 16 imm16
  | .crcUpdate b8 => fitsField 8 b8
  | .decFeed b8 => fitsField 8 b8
  | .encWrbuf idx b8 => fitsField 5 idx && fitsField 8 b8
  | .encStart cmd seq len => fitsField 8 cmd && fitsField 8 seq && fitsField 8 len
  | .word v => fitsField 32 v

/-- The source line that writes an operation (30_encoding R69). -/
def Instr.toSource : Instr → SourceOp
  | .nop => .nop
  | .crcLoad imm16 => .crcLoad imm16.toNat
  | .crcUpdate b8 => .crcUpdate b8.toNat
  | .crcRead => .crcRead
  | .decReset => .decReset
  | .decFeed b8 => .decFeed b8.toNat
  | .encWrbuf idx b8 => .encWrbuf idx.toNat b8.toNat
  | .encStart cmd seq len => .encStart cmd.toNat seq.toNat len.toNat
  | .encNext => .encNext
  | .statusRead => .statusRead
  | .statusClr => .statusClr

/-- An operation is well formed when its source line passes the range checks. Every `Instr` is
(`Laws.OperandsFit`), because its operands have the widths of their fields. -/
def Instr.wellFormed (i : Instr) : Bool := i.toSource.wellFormed

end Sys2Proof
end

