-- ==== Sys2Proof/Machine/Asm.lean ====
section
/-! DEFINITION. The assembler (30_encoding R69, R70): source text to command words. What R69 leaves open of the
notation is a DESIGN CHOICE, log entry 12: what ends a line, what separates words, how mnemonics and numbers are
spelled. Unsafe for a text that another assembler reads otherwise. -/

namespace Sys2Proof.Machine

/-- Why a source line does not assemble. -/
inductive AsmError where
  /-- The line is not a mnemonic with operands separated by commas, or an operand is no number. -/
  | badLine
  /-- No operation or pseudo-instruction of this name takes these operands. -/
  | badOperation
  /-- An operand is wider than its field, or an index or a payload too large (R69, R70). -/
  | range
  deriving DecidableEq, Repr

/-- One operation after its range check (30_encoding R69); `none` where an operand does not fit. -/
def assembleOp (op : SourceOp) : Option Word :=
  if op.wellFormed then
    match op with
    | .nop => some (encode .nop)
    | .crcLoad imm16 => some (encode (.crcLoad (BitVec.ofNat 16 imm16)))
    | .crcUpdate b8 => some (encode (.crcUpdate (BitVec.ofNat 8 b8)))
    | .crcRead => some (encode .crcRead)
    | .decReset => some (encode .decReset)
    | .decFeed b8 => some (encode (.decFeed (BitVec.ofNat 8 b8)))
    | .encWrbuf idx b8 => some (encode (.encWrbuf (BitVec.ofNat 5 idx) (BitVec.ofNat 8 b8)))
    | .encStart cmd seq len =>
      some (encode (.encStart (BitVec.ofNat 8 cmd) (BitVec.ofNat 8 seq) (BitVec.ofNat 8 len)))
    | .encNext => some (encode .encNext)
    | .statusRead => some (encode .statusRead)
    | .statusClr => some (encode .statusClr)
    | .word v => some (BitVec.ofNat 32 v)
  else none

/-- A piece of a source line: a run of other characters, or a punctuation mark. -/
inductive Token where
  | text (cs : List Char)
  | comma
  | lbrack
  | rbrack
  deriving DecidableEq, Repr

/-- End the run of characters read so far. -/
def flushText (acc : List Char) (rest : List Token) : List Token :=
  if acc.isEmpty then rest else .text acc :: rest

/-- The tokens of a line; a semicolon starts a comment (R69). Blanks, tabs and carriage returns separate tokens and are
otherwise ignored: DESIGN CHOICE, log entry 12, unsafe for a text that another assembler reads otherwise. -/
def lexLine : List Char → List Char → List Token
  | acc, [] => flushText acc []
  | acc, c :: cs =>
    if c = ';' then flushText acc []
    else if c = ' ' ∨ c = '\t' ∨ c = '\r' then flushText acc (lexLine [] cs)
    else if c = ',' then flushText acc (.comma :: lexLine [] cs)
    else if c = '[' then flushText acc (.lbrack :: lexLine [] cs)
    else if c = ']' then flushText acc (.rbrack :: lexLine [] cs)
    else lexLine (acc ++ [c]) cs

/-- The value of a digit in a base up to 16. -/
def digitValue (base : Nat) (c : Char) : Option Nat :=
  let n := c.toNat
  let v :=
    if 48 ≤ n ∧ n ≤ 57 then some (n - 48)
    else if 65 ≤ n ∧ n ≤ 70 then some (n - 55)
    else if 97 ≤ n ∧ n ≤ 102 then some (n - 87)
    else none
  match v with
  | some d => if d < base then some d else none
  | none => none

/-- Digits read left to right, onto the value so far. -/
def digitsValue (base : Nat) : Nat → List Char → Option Nat
  | v, [] => some v
  | v, c :: cs =>
    match digitValue base c with
    | some d => digitsValue base (v * base + d) cs
    | none => none

/-- A number, decimal or `0x` hexadecimal (R69). A small x, digits of either case, any number of leading zeros:
DESIGN CHOICE, log entry 12. -/
def numberValue : List Char → Option Nat
  | [] => none
  | '0' :: 'x' :: c :: cs => digitsValue 16 0 (c :: cs)
  | cs => digitsValue 10 0 cs

/-- An operand: a number, or the bracketed list of R70. -/
inductive Operand where
  | num (n : Nat)
  | list (ns : List Nat)
  deriving DecidableEq, Repr

/-- Where the reader of the operands stands. -/
inductive OperandState where
  /-- before the first operand -/
  | start
  /-- after an operand -/
  | after
  /-- after a comma -/
  | needed
  /-- just inside a bracket -/
  | opened
  /-- inside a bracket, after a number -/
  | inAfter (ns : List Nat)
  /-- inside a bracket, after a comma -/
  | inNeeded (ns : List Nat)
  deriving DecidableEq, Repr

/-- The operands of a line, separated by commas (R69, R70). -/
def readOperands : OperandState → List Token → Option (List Operand)
  | .start, [] => some []
  | .after, [] => some []
  | .start, .text cs :: ts | .needed, .text cs :: ts =>
    match numberValue cs with
    | some n => (readOperands .after ts).map (fun r => .num n :: r)
    | none => none
  | .start, .lbrack :: ts | .needed, .lbrack :: ts => readOperands .opened ts
  | .after, .comma :: ts => readOperands .needed ts
  | .opened, .rbrack :: ts => (readOperands .after ts).map (fun r => .list [] :: r)
  | .opened, .text cs :: ts =>
    match numberValue cs with
    | some n => readOperands (.inAfter [n]) ts
    | none => none
  | .inAfter ns, .rbrack :: ts => (readOperands .after ts).map (fun r => .list ns :: r)
  | .inAfter ns, .comma :: ts => readOperands (.inNeeded ns) ts
  | .inNeeded ns, .text cs :: ts =>
    match numberValue cs with
    | some n => readOperands (.inAfter (ns ++ [n])) ts
    | none => none
  | _, _ => none

/-- The operation a line names, if it names one (R69). -/
def sourceOp (mnemonic : String) (args : List Operand) : Option SourceOp :=
  match mnemonic, args with
  | "NOP", [] => some .nop
  | "CRC.LOAD", [.num a] => some (.crcLoad a)
  | "CRC.UPDATE", [.num a] => some (.crcUpdate a)
  | "CRC.READ", [] => some .crcRead
  | "DEC.RESET", [] => some .decReset
  | "DEC.FEED", [.num a] => some (.decFeed a)
  | "ENC.WRBUF", [.num a, .num b] => some (.encWrbuf a b)
  | "ENC.START", [.num a, .num b, .num c] => some (.encStart a b c)
  | "ENC.NEXT", [] => some .encNext
  | "STATUS.READ", [] => some .statusRead
  | "STATUS.CLR", [] => some .statusClr
  | ".word", [.num a] => some (.word a)
  | _, _ => none

/-- The numbers of a plain operand list. -/
def plainNumbers : List Operand → Option (List Nat)
  | [] => some []
  | .num n :: rest => (plainNumbers rest).map (n :: ·)
  | .list _ :: _ => none

/-- Bytes written as numbers; `none` where one does not fit 8 bits (R69). -/
def bytesOf (ns : List Nat) : Option (List Byte) :=
  if ns.all (fitsField 8) then some (ns.map (BitVec.ofNat 8)) else none

/-- The words of an expansion. -/
def wordsOf (ops : List Instr) : List Word := ops.map encode

/-- What a pseudo-instruction's line expands to, with `none` inside where a range check fails (R70); no answer
where the line names no pseudo-instruction. -/
def pseudoLine (mnemonic : String) (args : List Operand) : Option (Option (List Word)) :=
  match mnemonic, args with
  | "CRC.UPDATES", as => (plainNumbers as).map (fun ns => (bytesOf ns).map (fun bs => wordsOf (crcUpdates bs)))
  | "DEC.FEEDS", as => (plainNumbers as).map (fun ns => (bytesOf ns).map (fun bs => wordsOf (decFeeds bs)))
  | "CRC.CALC", [.num a, .list ns] =>
    some (if fitsField 16 a then (bytesOf ns).map (fun bs => wordsOf (crcCalc (BitVec.ofNat 16 a) bs)) else none)
  | "ENC.LOAD", [.list ns] => some ((bytesOf ns).bind (fun bs => (encLoad bs).map wordsOf))
  | "ENC.FRAME", [.num a, .num b, .list ns] =>
    some (if fitsField 8 a && fitsField 8 b then
        (bytesOf ns).bind (fun bs => (encFrame (BitVec.ofNat 8 a) (BitVec.ofNat 8 b) bs).map wordsOf)
      else none)
  | _, _ => none

/-- One source line: nothing for a blank line or a comment, else one operation or one pseudo-instruction. -/
def assembleLine (line : List Char) : Except AsmError (List Word) :=
  match lexLine [] line with
  | [] => .ok []
  | .text mn :: ts =>
    match readOperands .start ts with
    | none => .error .badLine
    | some args =>
      match sourceOp (String.ofList mn) args with
      | some op =>
        match assembleOp op with
        | some w => .ok [w]
        | none => .error .range
      | none =>
        match pseudoLine (String.ofList mn) args with
        | some (some ws) => .ok ws
        | some none => .error .range
        | none => .error .badOperation
  | _ => .error .badLine

/-- The lines of a text: a line feed, and nothing else, ends one, and the last needs none. R69 does not say what ends
a line: DESIGN CHOICE, log entry 12, unsafe for a text that another assembler reads otherwise. -/
def splitLines : List Char → List Char → List (List Char)
  | acc, [] => [acc]
  | acc, c :: cs => if c = '\n' then acc :: splitLines [] cs else splitLines (acc ++ [c]) cs

/-- Lines assembled in order, stopping at the first error. -/
def assembleLines : List (List Char) → Except AsmError (List Word)
  | [] => .ok []
  | l :: ls =>
    match assembleLine l with
    | .error e => .error e
    | .ok ws =>
      match assembleLines ls with
      | .error e => .error e
      | .ok rest => .ok (ws ++ rest)

/-- The assembler: a source text to its command words (30_encoding R69). -/
def assemble (source : String) : Except AsmError (List Word) := assembleLines (splitLines [] source.toList)

end Sys2Proof.Machine
end

