-- ==== Sys2Proof/Machine/HostProc.lean ====
section
/-! DEFINITION. The two host procedures the spec writes over the block's operations: resynchronisation with a
block of unknown state (70_reset_and_hazards R164) and one exchange (70_reset_and_hazards R168). They are host software and change nothing
in the block. -/

namespace Sys2Proof.Machine

/-- `ENC.NEXT` repeatedly until one returns `None`, at most `n` times (70_reset_and_hazards R164). -/
def drainEncoder : Nat → State → Option State
  | 0, _ => none
  | n + 1, s =>
    match exec .encNext s with
    | .next t => if t.resp = some .none then some t else drainEncoder n t
    | .fault _ => none
    | .refused _ => none

/-- The recommended resynchronisation: DEC.RESET, drain the encoder in at most 40 steps, STATUS.CLR
(70_reset_and_hazards R164). -/
def hostResync (s : State) : Option State :=
  match exec .decReset s with
  | .next t =>
    match drainEncoder 40 t with
    | some u =>
      match exec .statusClr u with
      | .next v => some v
      | .fault _ => none
      | .refused _ => none
    | none => none
  | .fault _ => none
  | .refused _ => none

/-- Feed received bytes until a frame with the expected command comes out; other frames and mismatches are
logged and discarded, and the end of the bytes is the timeout (70_reset_and_hazards R168). -/
def awaitFrame (expected : Byte) : List Byte → State → Option (State × Option Frame)
  | [], s => some (s, none)
  | b :: rest, s =>
    match exec (.decFeed b) s with
    | .next t =>
      match t.resp with
      | some (.frameOut f) => if f.cmd = expected then some (t, some f) else awaitFrame expected rest t
      | _ => awaitFrame expected rest t
    | .fault _ => none
    | .refused _ => none

/-- One exchange (70_reset_and_hazards R168): the bytes written to the transport, and the frame returned or `none` for
Timeout; `received` is what the transport delivers before the timeout. DESIGN CHOICE, log entry 13, safe. -/
def exchange (cmd seq : Byte) (p : List Byte) (expected : Byte) (received : List Byte) (s : State) :
    Option (State × List Byte × Option Frame) :=
  match encFrame cmd seq p with
  | none => none
  | some ops =>
    match runOps (.decReset :: ops) s with
    | none => none
    | some (t, resps) => (awaitFrame expected received t).map (fun u => (u.1, txBytes resps, u.2))

end Sys2Proof.Machine
end

