-- ==== Sys2Proof/Machine/Wire.lean ====
section
/-! DEFINITION. The wire format (30_encoding R62 to R67) and the reference encoder ENCODE (41_encoder R90), as
functions of byte sequences. -/

namespace Sys2Proof.Machine

/-- The checksum of a frame: over command, sequence, length and payload, neither the sync bytes nor the
checksum itself (30_encoding R64). -/
def frameCrc (cmd seq len : Byte) (p : List Byte) : Half := crc16 Config.crcInit ([cmd, seq, len] ++ p)

/-- The length byte of a payload. -/
def lenByte (p : List Byte) : Byte := BitVec.ofNat 8 p.length

/-- `ENCODE(cmd, seq, p)`, defined for payloads of at most 32 bytes (41_encoder R90). -/
def encodeFrame (cmd seq : Byte) (p : List Byte) : Option (List Byte) :=
  if p.length ≤ Config.maxLen then
    some ([Config.sync0, Config.sync1, cmd, seq, lenByte p] ++ p
      ++ [hiByte (frameCrc cmd seq (lenByte p) p), loByte (frameCrc cmd seq (lenByte p) p)])
  else none

/-- Whether a byte sequence is a frame on the wire, read off the offsets of 30_encoding R62. -/
def isWireFrame : List Byte → Bool
  | s0 :: s1 :: cmd :: seq :: len :: rest =>
    s0 == Config.sync0 && s1 == Config.sync1 && decide (len.toNat ≤ Config.maxLen)
      && rest.length == len.toNat + 2
      && rest.drop len.toNat ==
        [hiByte (frameCrc cmd seq len (rest.take len.toNat)), loByte (frameCrc cmd seq len (rest.take len.toNat))]
  | _ => false

/-- What 30_encoding R67 says of every decoded frame. -/
def Frame.wf (f : Frame) : Bool :=
  decide (f.len.toNat ≤ Config.maxLen) && f.payload.length == f.len.toNat
    && f.crc == frameCrc f.cmd f.seq f.len f.payload

/-- The record of a frame that carries a command, a sequence byte and a payload (42_decoder R120). -/
def frameOf (cmd seq : Byte) (p : List Byte) : Frame :=
  { cmd := cmd, seq := seq, len := lenByte p, payload := p, crc := frameCrc cmd seq (lenByte p) p }

end Sys2Proof.Machine
end

