-- ==== Sys2Proof/Safety.lean ====
section
/-! DEFINITION. What claims are stated with: the invariants of reachable states (10_state R28, R32), what a host
observes of the block, illegal words by their fields (30_encoding R60), the checksum round on plain numbers
(40_crc R80), and changes of a byte stream (42_decoder R122, R124). -/

namespace Sys2Proof.Machine

/-- The decoder's invariants, 10_state R28 items 1 to 5, one clause each in their order. -/
def DecInv (d : Decoder) : Prop :=
  ((d.state = .seekSync0 ∨ d.state = .seekSync1 ∨ d.state = .commandByte ∨ d.state = .sequenceByte
      ∨ d.state = .lengthByte) → d.buf = [])
  ∧ (d.state = .commandByte → d.crc = Config.crcInit)
  ∧ (d.state = .sequenceByte → d.crc = crc16 Config.crcInit [d.cmd])
  ∧ (d.state = .lengthByte → d.crc = crc16 Config.crcInit [d.cmd, d.seq])
  ∧ (d.state = .payloadByte →
      1 ≤ d.len.toNat ∧ d.len.toNat ≤ Config.maxLen ∧ d.buf.length < d.len.toNat
        ∧ d.crc = frameCrc d.cmd d.seq d.len d.buf)
  ∧ ((d.state = .checksumHigh ∨ d.state = .checksumLow) →
      d.len.toNat ≤ Config.maxLen ∧ d.buf.length = d.len.toNat ∧ d.crc = frameCrc d.cmd d.seq d.len d.buf)
  ∧ (d.state = .checksumLow → loByte d.rxCrc = 0x00#8)

/-- The encoder's invariants: ENC_IDX is 0..32 (10_state R20), then 10_state R32 items 1 to 5. -/
def EncInv (e : Encoder) : Prop :=
  e.idx.toNat ≤ Config.maxLen
  ∧ (e.state ≠ .idle → e.len.toNat ≤ Config.maxLen)
  ∧ ((e.state = .sync0 ∨ e.state = .sync1 ∨ e.state = .cmd ∨ e.state = .seq ∨ e.state = .len) → e.idx = 0#6)
  ∧ (e.state = .payload → 1 ≤ e.len.toNat ∧ e.idx.toNat < e.len.toNat)
  ∧ ((e.state = .crcHi ∨ e.state = .crcLo) → e.idx.toNat = e.len.toNat)
  ∧ ((e.state = .sync0 ∨ e.state = .sync1 ∨ e.state = .cmd) → e.crc = Config.crcInit)
  ∧ (e.state = .seq → e.crc = crc16 Config.crcInit [e.cmd])
  ∧ (e.state = .len → e.crc = crc16 Config.crcInit [e.cmd, e.seq])
  ∧ ((e.state = .payload ∨ e.state = .crcHi ∨ e.state = .crcLo) →
      e.crc = frameCrc e.cmd e.seq e.len (bufTake e.buf e.idx.toNat))

/-- What holds in every state a run from reset reaches: the invariants of both units (10_state R28, R32), and
ENC_BUF in its canonical form. -/
def BlockInv (s : State) : Prop := DecInv s.dec ∧ EncInv s.enc ∧ s.enc.buf.wf = true

/-- What a host observes of an outcome: the response and the STATUS word it would read (10_state R35), or that
the run has ended, and why. -/
def observe : Host.Outcome State Fault Refusal → (Option Resp × Half) ⊕ (Fault ⊕ Refusal)
  | .next s => .inl (s.resp, statusWord s)
  | .fault f => .inr (.inl f)
  | .refused r => .inr (.inr r)

/-- A must-be-zero operand bit of the word's operation is set, by the table of formats (30_encoding R56). -/
def mustBeZeroBitSet (w : Word) : Bool :=
  match (opField w).toNat with
  | 0 | 3 | 4 | 8 | 9 | 10 => w.extractLsb' 0 24 != 0#24
  | 1 => w.extractLsb' 16 8 != 0#8
  | 2 | 5 => w.extractLsb' 8 16 != 0#16
  | 6 => w.extractLsb' 13 11 != 0#11
  | _ => false

/-- An illegal word, by the list of 30_encoding R60: OP in 0xB to 0xF, RSV non-zero, or any must-be-zero bit of
the format set. -/
def illegalWord (w : Word) : Bool :=
  decide (0xB ≤ (opField w).toNat) || rsvField w != 0#4 || mustBeZeroBitSet w

/-- One round of 40_crc R80 on an unbounded number, masked as R80 writes it. -/
def crcRoundNat (a : Nat) : Nat :=
  if a.testBit 15 then ((a <<< 1) ^^^ 0x1021) &&& 0xFFFF else (a <<< 1) &&& 0xFFFF

/-- A payload with bit `j` of byte `k` flipped (42_decoder R122). -/
def flipBit (p : List Byte) (k : Nat) (j : Fin 8) : List Byte :=
  p.modify k (fun b => b ^^^ (1#8 <<< j.val))

/-- Whether a byte sequence holds no `AA 55` pair (42_decoder R124). -/
def noSyncPair : List Byte → Bool
  | [] => true
  | [_] => true
  | b :: c :: rest => !(b == Config.sync0 && c == Config.sync1) && noSyncPair (c :: rest)

end Sys2Proof.Machine
end

