-- ==== Sys2Proof/Certificates/Slice0/Obligations.lean ====
section
/-! DEFINITION. The statements about FRAMER16, from the numbered rules of spec/. A result is stated as the whole
next state, `{ s with … }`, so each says also what the operation leaves unchanged. -/

open Sys2Proof
open Sys2Proof.Machine

/-! ### Reset and the step -/

/-- 10_state R37: the reset value of every register; ENC_BUF[i] = 0x00 for i in 0..31. The two fields of the
model's own (log entries 1 and 3) are not stated here. -/
def Obligations.ResetGivesEveryRegisterItsValue : Prop :=
  State.reset.crcAcc = 0xFFFF#16
  ∧ State.reset.dec =
      { state := .seekSync0, cmd := 0x00#8, seq := 0x00#8, len := 0x00#8, buf := [], crc := Config.crcInit,
        rxCrc := 0x0000#16 }
  ∧ State.reset.enc.state = .idle
  ∧ State.reset.enc.cmd = 0x00#8 ∧ State.reset.enc.seq = 0x00#8 ∧ State.reset.enc.len = 0x00#8
  ∧ State.reset.enc.idx = 0#6 ∧ State.reset.enc.crc = Config.crcInit
  ∧ (∀ i : Nat, i < 32 → memRead State.reset.enc.buf i = some 0x00#8)
  ∧ State.reset.eovr = false ∧ State.reset.ill = false
  ∧ Config.crcInit = 0xFFFF#16
  ∧ decInit = State.reset.dec

/-- 70_reset_and_hazards R160: from any state, the reset step sets every register to its reset value, takes no command word
and produces no response; what the host presents next is not touched. -/
def Obligations.ResetStepFromEveryState : Prop :=
  ∀ (s : State) (rest : List PortInput), s.input = .reset :: rest →
    ∃ t : State, step s = .next t
      ∧ t = { State.reset with input := rest }
      ∧ t.crcAcc = 0xFFFF#16 ∧ t.dec = decInit ∧ t.enc.state = .idle ∧ t.enc.crc = Config.crcInit
      ∧ (∀ i : Nat, i < 32 → memRead t.enc.buf i = some 0x00#8)
      ∧ t.eovr = false ∧ t.ill = false ∧ t.resp = none

/-- The step on a valid word is `exec` of the decoded operation, with the word taken from the host's stream
(00_scope R18). -/
def Obligations.StepRunsTheDecodedInstruction : Prop :=
  ∀ (s : State) (w : Word) (rest : List PortInput) (i : Instr),
    s.input = .word w :: rest → decode w = .valid i → step s = exec i { s with input := rest }

/-- 43_control R133: a word with a reserved OP, a non-zero RSV field or a must-be-zero operand bit set sets
STATUS_ILL, responds None and changes nothing else. -/
def Obligations.InvalidWordSetsIllAndNothingElse : Prop :=
  (∀ (s : State) (w : Word) (rest : List PortInput), s.input = .word w :: rest → illegalWord w = true →
    step s = .next { s with ill := true, resp := some .none, input := rest })
  ∧ illegalWord 0xB0000000#32 = true

/-- With nothing presented the block holds its state (60_exceptions R152); that such a step exists, and that it
ends the last response, is the model's choice (log entry 2). -/
def Obligations.HoldsItsStateWhenNothingIsPresented : Prop :=
  ∀ s : State, s.input = [] → step s = .next { s with resp := none }

/-- 10_state R22: a list of command words presented one a step runs the operations one a step, each step taking
one word whatever the operation. -/
def Obligations.PresentedWordsRunInOrder : Prop :=
  ∀ (ops : List Instr) (s t : State) (rs : List (Option Resp)) (rest : List PortInput),
    runOps ops s = some (t, rs) →
      core.run ops.length { s with input := ops.map (fun i => .word (encode i)) ++ rest }
        = .next { t with input := rest }

/-! ### Encoding -/

/-- 30_encoding R71, which the spec marks as derived from R56 to R58: each source line of its table assembles to the word of its table, which decodes to the
operation the line names, and the four raw words of the table are invalid. -/
def Obligations.ExampleWordsDecode : Prop :=
  (assemble "NOP").toOption = some [0x00000000#32] ∧ decode 0x00000000#32 = .valid .nop
  ∧ (assemble "CRC.LOAD 0xFFFF").toOption = some [0x1000FFFF#32] ∧ decode 0x1000FFFF#32 = .valid (.crcLoad 0xFFFF#16)
  ∧ (assemble "CRC.UPDATE 0x31").toOption = some [0x20000031#32] ∧ decode 0x20000031#32 = .valid (.crcUpdate 0x31#8)
  ∧ (assemble "CRC.READ").toOption = some [0x30000000#32] ∧ decode 0x30000000#32 = .valid .crcRead
  ∧ (assemble "DEC.RESET").toOption = some [0x40000000#32] ∧ decode 0x40000000#32 = .valid .decReset
  ∧ (assemble "DEC.FEED 0xAA").toOption = some [0x500000AA#32] ∧ decode 0x500000AA#32 = .valid (.decFeed 0xAA#8)
  ∧ (assemble "ENC.WRBUF 3, 0x5A").toOption = some [0x6000035A#32] ∧ decode 0x6000035A#32 = .valid (.encWrbuf 3#5 0x5A#8)
  ∧ (assemble "ENC.WRBUF 31, 0xFF").toOption = some [0x60001FFF#32] ∧ decode 0x60001FFF#32 = .valid (.encWrbuf 31#5 0xFF#8)
  ∧ (assemble "ENC.START 0x05, 0x01, 0").toOption = some [0x70050100#32] ∧ decode 0x70050100#32 = .valid (.encStart 0x05#8 0x01#8 0#8)
  ∧ (assemble "ENC.START 0x81, 0x01, 8").toOption = some [0x70810108#32] ∧ decode 0x70810108#32 = .valid (.encStart 0x81#8 0x01#8 8#8)
  ∧ (assemble "ENC.NEXT").toOption = some [0x80000000#32] ∧ decode 0x80000000#32 = .valid .encNext
  ∧ (assemble "STATUS.READ").toOption = some [0x90000000#32] ∧ decode 0x90000000#32 = .valid .statusRead
  ∧ (assemble "STATUS.CLR").toOption = some [0xA0000000#32] ∧ decode 0xA0000000#32 = .valid .statusClr
  ∧ (assemble ".word 0x0F000000").toOption = some [0x0F000000#32] ∧ (decode 0x0F000000#32).toOption = none
  ∧ (assemble ".word 0x30000001").toOption = some [0x30000001#32] ∧ (decode 0x30000001#32).toOption = none
  ∧ (assemble ".word 0x60002000").toOption = some [0x60002000#32] ∧ (decode 0x60002000#32).toOption = none
  ∧ (assemble ".word 0xB0000000").toOption = some [0xB0000000#32] ∧ (decode 0xB0000000#32).toOption = none

/-- 30_encoding R59, which the spec marks as derived from R58: a word is valid if and only if some row has `(w & mask) == match`, that row is its
operation, no two rows share an OP value, and at most one row matches. -/
def Obligations.ValidWordsAreThoseOfTheOpcodeMap : Prop :=
  (opRows.map (fun r => opField r.bits)).Nodup
  ∧ ∀ w : Word,
    (∀ i : Instr, decode w = .valid i ↔ ∃ r ∈ opRows, w &&& r.mask = r.bits ∧ r.read w = i)
    ∧ (∀ r ∈ opRows, ∀ q ∈ opRows, w &&& r.mask = r.bits → w &&& q.mask = q.bits → r = q)

/-- 30_encoding R60: the invalid words are exactly those with OP in 0xB to 0xF, RSV non-zero, or a must-be-zero
bit of the format set. -/
def Obligations.InvalidWordsAreTheIllegalEncodings : Prop :=
  ∀ w : Word, (decode w).toOption = none ↔ illegalWord w = true

/-- Decoding the word of an operation gives that operation back, with every operand at every value (30_encoding
R56 to R59). Every `Instr` is well formed, so there is no hypothesis. -/
def Obligations.DecodeOfEncodeIsTheInstruction : Prop :=
  ∀ i : Instr, decode (encode i) = .valid i

/-- A valid word is the word of the operation it decodes to: no bit of it is dropped (30_encoding R56 to R60). -/
def Obligations.EncodeOfDecodeIsTheWord : Prop :=
  ∀ (w : Word) (i : Instr), decode w = .valid i → encode i = w

/-- 30_encoding R69, the range checks: the source line of an operation assembles to its word, and a line with an
operand wider than its field, or an index above 31, to nothing. -/
def Obligations.AssemblerChecksRanges : Prop :=
  (∀ i : Instr, assembleOp i.toSource = some (encode i))
  ∧ (∀ v : Nat, assembleOp (.word v) = if v < 2 ^ 32 then some (BitVec.ofNat 32 v) else none)
  ∧ (∀ n : Nat, 0xFFFF < n → assembleOp (.crcLoad n) = none)
  ∧ (∀ n : Nat, 0xFF < n → assembleOp (.crcUpdate n) = none ∧ assembleOp (.decFeed n) = none)
  ∧ (∀ n b : Nat, 31 < n ∨ 0xFF < b → assembleOp (.encWrbuf n b) = none)
  ∧ (∀ c q n : Nat, 0xFF < c ∨ 0xFF < q ∨ 0xFF < n → assembleOp (.encStart c q n) = none)

/-! ### Responses -/

/-- 30_encoding R72: which operation returns which response. Every other operation returns None, and so do
the DEC.FEED and ENC.NEXT steps that the other clauses do not name. -/
def Obligations.ResponsesByOperation : Prop :=
  ∀ (i : Instr) (s t : State), exec i s = .next t →
    ∃ r : Resp, t.resp = some r
      ∧ (∀ v, r = .rdata v → i = .crcRead ∨ i = .statusRead)
      ∧ (∀ f, r = .frameOut f →
          ∃ b, i = .decFeed b ∧ s.dec.state = .checksumLow ∧ s.dec.rxCrc ||| b.zeroExtend 16 = s.dec.crc)
      ∧ (∀ m, r = .mismatch m →
          ∃ b, i = .decFeed b ∧ s.dec.state = .checksumLow ∧ s.dec.rxCrc ||| b.zeroExtend 16 ≠ s.dec.crc)
      ∧ (∀ b, r = .tx b → i = .encNext ∧ s.enc.state ≠ .idle)
      ∧ ((i = .crcRead ∨ i = .statusRead) → ∃ v, r = .rdata v)
      ∧ ((∃ b, i = .decFeed b) → s.dec.state = .checksumLow →
          (∃ f, r = .frameOut f) ∨ (∃ m, r = .mismatch m))
      ∧ (i = .encNext → s.enc.state ≠ .idle → ∃ b, r = .tx b)

/-! ### CRC unit -/

/-- 40_crc R80: CrcStep on the unbounded numbers of its pseudocode, masked to 16 bits in each of 8 rounds. -/
def Obligations.CrcStepIsEightMaskedRounds : Prop :=
  ∀ (acc : Half) (b : Byte),
    (crcStep acc b).toNat
      = crcRoundNat (crcRoundNat (crcRoundNat (crcRoundNat (crcRoundNat (crcRoundNat (crcRoundNat (crcRoundNat
          (acc.toNat ^^^ (b.toNat <<< 8)))))))))

/-- 40_crc R83, laws 2 to 4, which the spec marks as derived from R80 and R81: incrementality at every split point and from every accumulator; only the XOR of the
byte and the high byte matters; zero is a fixed point. -/
def Obligations.ChecksumLaws : Prop :=
  (∀ (a : Half) (p : List Byte) (k : Nat), k ≤ p.length → crc16 (crc16 a (p.take k)) (p.drop k) = crc16 a p)
  ∧ (∀ (acc : Half) (b : Byte), crcStep acc b = crcStep (acc ^^^ (b.zeroExtend 16 <<< 8)) 0x00#8)
  ∧ crcStep 0x8000#16 0x00#8 = 0x9188#16 ∧ crcStep 0x0000#16 0x80#8 = 0x9188#16
  ∧ crcStep 0x0000#16 0x00#8 = 0x0000#16

/-- A change of one byte, anywhere in a sequence of any length, changes the checksum (from 40_crc R80; it is why
42_decoder R122 holds). -/
def Obligations.ChecksumDetectsEveryOneByteChange : Prop :=
  ∀ (acc : Half) (p q : List Byte) (x y : Byte), x ≠ y → crc16 acc (p ++ x :: q) ≠ crc16 acc (p ++ y :: q)

/-- 40_crc R84. -/
def Obligations.CrcLoadSetsTheAccumulator : Prop :=
  ∀ (imm16 : Half) (s : State),
    decode (0x1000#16 ++ imm16) = .valid (.crcLoad imm16)
    ∧ exec (.crcLoad imm16) s = .next { s with crcAcc := imm16, resp := some .none }

/-- 40_crc R85: the encoding, the pseudocode and the corner cases; n CRC.UPDATE steps compute CRC16. -/
def Obligations.CrcUpdateFoldsOneByte : Prop :=
  (∀ (b8 : Byte) (s : State),
    decode (0x200000#24 ++ b8) = .valid (.crcUpdate b8)
    ∧ exec (.crcUpdate b8) s = .next { s with crcAcc := crcStep s.crcAcc b8, resp := some .none })
  ∧ crcStep 0x0000#16 0x00#8 = 0x0000#16 ∧ crcStep 0x0000#16 0x01#8 = 0x1021#16
  ∧ crcStep 0xFFFF#16 0xFF#8 = 0xFF00#16 ∧ crcStep 0xFFFF#16 0x00#8 = 0xE1F0#16
  ∧ (∀ (bs : List Byte) (s : State),
      (runOps (bs.map Instr.crcUpdate) s).map (fun u => u.1.crcAcc) = some (crc16 s.crcAcc bs))

/-- 40_crc R86: the accumulator is returned and nothing changes; after reset it is 0xFFFF; the example of R86. -/
def Obligations.CrcReadReturnsTheAccumulator : Prop :=
  decode 0x30000000#32 = .valid .crcRead
  ∧ (∀ s : State, exec .crcRead s = .next { s with resp := some (.rdata s.crcAcc) })
  ∧ State.reset.crcAcc = 0xFFFF#16
  ∧ crc16 0xFFFF#16 [0x31#8, 0x32#8, 0x33#8, 0x34#8, 0x35#8, 0x36#8, 0x37#8, 0x38#8, 0x39#8] = 0x29B1#16

/-- 30_encoding R70, row CRC.CALC, with 40_crc R85: n CRC.UPDATE steps compute CRC16, and the last response is
its value; nothing but the CRC unit changes. -/
def Obligations.CrcCalcReturnsTheChecksum : Prop :=
  ∀ (init : Half) (bs : List Byte) (s : State),
    runOps (crcCalc init bs) s
      = some ({ s with crcAcc := crc16 init bs, resp := some (.rdata (crc16 init bs)) },
          List.replicate (bs.length + 1) (some .none) ++ [some (.rdata (crc16 init bs))])

/-! ### Decoder -/

/-- 42_decoder R106, with the values of R105; STATUS.DSTATE and STATUS.DCNT read 0 afterwards. -/
def Obligations.DecResetReinitialisesTheDecoder : Prop :=
  decode 0x40000000#32 = .valid .decReset
  ∧ ∀ s : State, ∃ t : State,
    exec .decReset s = .next t
    ∧ t = { s with
      dec := { state := .seekSync0, cmd := 0x00#8, seq := 0x00#8, len := 0x00#8, buf := [],
               crc := Config.crcInit, rxCrc := 0x0000#16 }
      resp := some .none }
    ∧ (statusWord t).extractLsb' 0 3 = 0#3 ∧ (statusWord t).extractLsb' 8 6 = 0#6

/-- 42_decoder R108 and R109: only 0xAA moves on from SEEK_SYNC0 and only 0x55 from SEEK_SYNC1; another 0xAA in
SEEK_SYNC1, like any other byte, returns to SEEK_SYNC0. -/
def Obligations.FeedWhileSeekingSync : Prop :=
  ∀ (b : Byte) (s : State),
    (s.dec.state = .seekSync0 →
      exec (.decFeed b) s =
        if b = 0xAA#8 then .next { s with dec := { s.dec with state := .seekSync1 }, resp := some .none }
        else .next { s with resp := some .none })
    ∧ (s.dec.state = .seekSync1 →
      exec (.decFeed b) s =
        if b = 0x55#8 then
          .next { s with dec := { s.dec with crc := Config.crcInit, state := .commandByte }, resp := some .none }
        else .next { s with dec := { s.dec with state := .seekSync0 }, resp := some .none })

/-- 42_decoder R110 and R111. -/
def Obligations.FeedCommandAndSequenceBytes : Prop :=
  ∀ (b : Byte) (s : State),
    (s.dec.state = .commandByte →
      exec (.decFeed b) s = .next { s with
        dec := { s.dec with cmd := b, crc := crcStep s.dec.crc b, state := .sequenceByte }, resp := some .none })
    ∧ (s.dec.state = .sequenceByte →
      exec (.decFeed b) s = .next { s with
        dec := { s.dec with seq := b, crc := crcStep s.dec.crc b, state := .lengthByte }, resp := some .none })

/-- 42_decoder R112: 33 to 255 is a silent drop, 0 goes to CHECKSUM_HIGH, 1 to 32 to PAYLOAD_BYTE. -/
def Obligations.FeedLengthByteBoundsTheFrame : Prop :=
  ∀ (b : Byte) (s : State), s.dec.state = .lengthByte →
    exec (.decFeed b) s =
      if 32 < b.toNat then .next { s with dec := decInit, resp := some .none }
      else if b = 0#8 then .next { s with
        dec := { s.dec with len := b, crc := crcStep s.dec.crc b, state := .checksumHigh }, resp := some .none }
      else .next { s with
        dec := { s.dec with len := b, crc := crcStep s.dec.crc b, buf := [], state := .payloadByte }
        resp := some .none }

/-- 42_decoder R113: the byte is appended and folded, and the frame moves on when the buffer holds DEC_LEN
bytes. -/
def Obligations.FeedPayloadByteFillsTheBuffer : Prop :=
  ∀ (b : Byte) (s : State), s.dec.state = .payloadByte →
    exec (.decFeed b) s =
      if s.dec.buf.length + 1 = s.dec.len.toNat then .next { s with
        dec := { s.dec with buf := s.dec.buf ++ [b], crc := crcStep s.dec.crc b, state := .checksumHigh }
        resp := some .none }
      else .next { s with
        dec := { s.dec with buf := s.dec.buf ++ [b], crc := crcStep s.dec.crc b }, resp := some .none }

/-- 42_decoder R114: the byte becomes bits 15:8 of DEC_RXCRC, bits 7:0 become 0, and it is not folded. -/
def Obligations.FeedChecksumHighByte : Prop :=
  ∀ (b : Byte) (s : State), s.dec.state = .checksumHigh →
    exec (.decFeed b) s = .next { s with
      dec := { s.dec with rxCrc := b ++ 0x00#8, state := .checksumLow }, resp := some .none }

/-- 42_decoder R115: the received checksum is compared with the computed one, the record is captured, and the
decoder is reinitialised either way. -/
def Obligations.FeedChecksumLowByteEndsTheFrame : Prop :=
  ∀ (b : Byte) (s : State), s.dec.state = .checksumLow →
    exec (.decFeed b) s =
      if s.dec.rxCrc ||| b.zeroExtend 16 = s.dec.crc then .next { s with
        dec := decInit
        resp := some (.frameOut
          { cmd := s.dec.cmd, seq := s.dec.seq, len := s.dec.len, payload := s.dec.buf, crc := s.dec.crc }) }
      else .next { s with
        dec := decInit
        resp := some (.mismatch
          { cmd := s.dec.cmd, seq := s.dec.seq, len := s.dec.len, rxCrc := s.dec.rxCrc ||| b.zeroExtend 16,
            calcCrc := s.dec.crc }) }

/-- 42_decoder R107: every byte value is accepted in every state; the decoder never stops, it touches nothing
outside its own registers, and it answers with None, FrameOut or Mismatch. -/
def Obligations.DecFeedCompletesInEveryState : Prop :=
  ∀ (b : Byte) (s : State),
    decode (0x500000#24 ++ b) = .valid (.decFeed b)
    ∧ ∃ (d : Decoder) (r : Resp), exec (.decFeed b) s = .next { s with dec := d, resp := some r }
        ∧ (r = .none ∨ (∃ f, r = .frameOut f) ∨ ∃ m, r = .mismatch m)

/-- 42_decoder R116, which the spec marks as derived from R112, R113, R115 and R28: a frame that comes out satisfies
30_encoding R67. -/
def Obligations.FrameOutIsAWellFormedFrame : Prop :=
  ∀ (b : Byte) (s t : State) (f : Frame), DecInv s.dec → exec (.decFeed b) s = .next t →
    t.resp = some (.frameOut f) →
      f.payload.length = f.len.toNat ∧ f.len.toNat ≤ 32
      ∧ f.crc = crc16 Config.crcInit ([f.cmd, f.seq, f.len] ++ f.payload)
      ∧ (f.len = 0#8 → f.payload = [])

/-- 42_decoder R117: the report carries the frame's command, sequence and length and both checksums, which
differ, and leaves no trace in the block's state. -/
def Obligations.MismatchReportsDifferingChecksums : Prop :=
  ∀ (b : Byte) (s t : State) (m : MismatchInfo), exec (.decFeed b) s = .next t → t.resp = some (.mismatch m) →
    m.rxCrc ≠ m.calcCrc
    ∧ m.cmd = s.dec.cmd ∧ m.seq = s.dec.seq ∧ m.len = s.dec.len ∧ m.calcCrc = s.dec.crc
    ∧ m.rxCrc = s.dec.rxCrc ||| b.zeroExtend 16
    ∧ t = { s with dec := decInit, resp := some (.mismatch m) }

/-- 42_decoder R120, which the spec marks as derived from R90 and R108 to R115: feeding ENCODE(cmd, seq, p) to a decoder in SEEK_SYNC0 gives exactly one FrameOut, on the
last byte, with the triple and its checksum, and the decoder ends in SEEK_SYNC0. -/
def Obligations.RoundTripThroughTheDecoder : Prop :=
  ∀ (cmd seq : Byte) (p w : List Byte) (s : State),
    encodeFrame cmd seq p = some w → DecInv s.dec → s.dec.state = .seekSync0 →
    ∃ t : State,
      runOps (decFeeds w) s
        = some (t, List.replicate (6 + p.length) (some .none)
            ++ [some (.frameOut
                { cmd := cmd, seq := seq, len := BitVec.ofNat 8 p.length, payload := p,
                  crc := crc16 Config.crcInit ([cmd, seq, BitVec.ofNat 8 p.length] ++ p) })])
      ∧ t.dec.state = .seekSync0

/-- The converse of R120: a frame comes out of a decoder that was in SEEK_SYNC0 only if the bytes fed to it end
with that frame's encoding (42_decoder R107 to R116, 30_encoding R62). -/
def Obligations.FrameOutOnlyAfterItsEncoding : Prop :=
  ∀ (bs : List Byte) (s t : State) (rs : List (Option Resp)) (f : Frame),
    DecInv s.dec → s.dec.state = .seekSync0 → runOps (decFeeds bs) s = some (t, rs) →
    rs.getLast? = some (some (.frameOut f)) →
      ∃ before w : List Byte, bs = before ++ w ∧ encodeFrame f.cmd f.seq f.payload = some w

/-- 42_decoder R121, which the spec marks as derived from R112 and R118: a header with length byte 33 responds None on every byte and leaves SEEK_SYNC0; what follows
yields a frame only once a whole new frame, sync included, lies in the bytes after the header. -/
def Obligations.LengthThirtyThreeNeverYieldsAFrame : Prop :=
  ∀ (c q : Byte) (s : State), DecInv s.dec → s.dec.state = .seekSync0 →
    ∃ t : State,
      runOps (decFeeds [0xAA#8, 0x55#8, c, q, 0x21#8]) s = some (t, List.replicate 5 (some .none))
      ∧ t.dec.state = .seekSync0
      ∧ ∀ (bs : List Byte) (u : State) (rs : List (Option Resp)) (f : Frame),
          runOps (decFeeds bs) t = some (u, rs) → rs.getLast? = some (some (.frameOut f)) →
            ∃ before w : List Byte, bs = before ++ w ∧ encodeFrame f.cmd f.seq f.payload = some w

/-- 42_decoder R122, which the spec marks as derived from R80 and R112 to R115: one flipped bit of one payload byte gives Mismatch on the last byte and no FrameOut, and a
valid frame fed afterwards gives its FrameOut; CRC16 detects every single-bit change of any byte sequence. -/
def Obligations.SingleBitErrorGivesMismatch : Prop :=
  (∀ (acc : Half) (bs : List Byte) (k : Nat) (j : Fin 8), k < bs.length →
    crc16 acc (flipBit bs k j) ≠ crc16 acc bs)
  ∧ ∀ (cmd seq : Byte) (p w : List Byte) (k : Nat) (j : Fin 8) (s : State),
    encodeFrame cmd seq p = some w → k < p.length → DecInv s.dec → s.dec.state = .seekSync0 →
    ∃ (t : State) (m : MismatchInfo),
      runOps (decFeeds (w.take 5 ++ flipBit p k j ++ w.drop (5 + p.length))) s
        = some (t, List.replicate (6 + p.length) (some .none) ++ [some (.mismatch m)])
      ∧ t.dec.state = .seekSync0
      ∧ ∀ (cmd' seq' : Byte) (p' w' : List Byte), encodeFrame cmd' seq' p' = some w' →
          ∃ u : State, runOps (decFeeds w') t
            = some (u, List.replicate (6 + p'.length) (some .none) ++ [some (.frameOut (frameOf cmd' seq' p'))])

/-- 42_decoder R123, which the spec marks as derived from R112: a zero-length frame goes from LENGTH_BYTE straight to CHECKSUM_HIGH and comes out with an
empty payload. -/
def Obligations.ZeroLengthFrameSkipsThePayload : Prop :=
  ∀ (cmd seq : Byte) (s : State), DecInv s.dec → s.dec.state = .seekSync0 →
    ∃ (t u : State) (f : Frame),
      runOps (decFeeds [0xAA#8, 0x55#8, cmd, seq]) s = some (t, List.replicate 4 (some .none))
      ∧ t.dec.state = .lengthByte
      ∧ runOps (decFeeds [0x00#8]) t = some (u, [some .none]) ∧ u.dec.state = .checksumHigh
      ∧ (∃ v : State, runOps (decFeeds [hiByte (frameCrc cmd seq 0x00#8 []), loByte (frameCrc cmd seq 0x00#8 [])]) u
          = some (v, [some .none, some (.frameOut f)]))
      ∧ f.payload = [] ∧ f.len = 0x00#8 ∧ f.cmd = cmd ∧ f.seq = seq

/-- 42_decoder R124, which the spec marks as derived from R108 and R109: noise without an `AA 55` pair and not ending in 0xAA does not cost the frame after it; one
0xAA right before a frame does, unless the frame's later bytes hold an `AA 55` pair. -/
def Obligations.ResynchronisationAfterNoise : Prop :=
  ∀ (cmd seq : Byte) (p w : List Byte) (s : State),
    encodeFrame cmd seq p = some w → DecInv s.dec → s.dec.state = .seekSync0 →
    (∀ noise : List Byte, noSyncPair noise = true → noise.getLast? ≠ some 0xAA#8 →
      ∃ t : State, runOps (decFeeds (noise ++ w)) s
        = some (t, List.replicate (noise.length + 6 + p.length) (some .none) ++ [some (.frameOut (frameOf cmd seq p))]))
    ∧ (∃ t : State, runOps (decFeeds [0xAA#8, 0xAA#8, 0x55#8]) s = some (t, List.replicate 3 (some .none))
        ∧ t.dec.state = .seekSync0)
    ∧ (noSyncPair (w.drop 2) = true →
        ∃ t : State, runOps (decFeeds (0xAA#8 :: w)) s = some (t, List.replicate (w.length + 1) (some .none)))

/-- From 70_reset_and_hazards R173, which the spec marks as derived from 42_decoder R109 to R115: whatever the bytes are, a decoder that has just taken a sync consumes at most 37 further
bytes before it looks for a sync again. -/
def Obligations.FalseSyncConsumesAtMost37Bytes : Prop :=
  ∀ (bs : List Byte) (s : State), DecInv s.dec → s.dec.state = .commandByte → bs.length = 37 →
    ∃ (k : Nat) (t : State) (rs : List (Option Resp)), k ≤ 37 ∧ runOps (decFeeds (bs.take k)) s = some (t, rs)
      ∧ t.dec.state = .seekSync0

/-! ### Encoder -/

/-- 20_memory R41: a byte written is the byte read at its index, and every other index reads as before. The other
clauses are the model's choice and no rule of the spec: that an index above 31 reads nothing is log entry 5 (R41 says
only that it cannot arise), and that a write keeps the canonical form and the form determines the list is log entry 8,
as is the premise. -/
def Obligations.EncBufReadsBackWhatWasWritten : Prop :=
  ∀ (m : Memory) (i : BitVec 5) (v : Byte), m.wf = true →
    memRead (memWrite m i v) i.toNat = some v
    ∧ (∀ k : Nat, k ≠ i.toNat → memRead (memWrite m i v) k = memRead m k)
    ∧ (∀ k : Nat, 32 ≤ k → memRead m k = none)
    ∧ (memWrite m i v).wf = true
    ∧ (∀ n : Memory, n.wf = true → (∀ k : Nat, k < 32 → memRead m k = memRead n k) → m = n)

/-- 41_encoder R91: idle, one byte of ENC_BUF is written and everything else is as before; busy, the write is
ignored and STATUS_EOVR is set. -/
def Obligations.EncWrbufWritesWhileIdle : Prop :=
  ∀ (idx : BitVec 5) (b8 : Byte) (s : State), s.enc.buf.wf = true →
    decode (0x6000#16 ++ 0#3 ++ idx ++ b8) = .valid (.encWrbuf idx b8)
    ∧ (s.enc.state = .idle →
      ∃ m : Memory,
        exec (.encWrbuf idx b8) s = .next { s with enc := { s.enc with buf := m }, resp := some .none }
        ∧ memRead m idx.toNat = some b8
        ∧ (∀ k : Nat, k ≠ idx.toNat → memRead m k = memRead s.enc.buf k))
    ∧ (s.enc.state ≠ .idle →
      exec (.encWrbuf idx b8) s = .next { s with eovr := true, resp := some .none })

/-- 41_encoder R92, the checks in their order: busy, then over-length, then the start. -/
def Obligations.EncStartLatchesTheFrame : Prop :=
  ∀ (cmd seq len : Byte) (s : State),
    decode (0x70#8 ++ cmd ++ seq ++ len) = .valid (.encStart cmd seq len)
    ∧ (s.enc.state ≠ .idle → exec (.encStart cmd seq len) s = .next { s with eovr := true, resp := some .none })
    ∧ (s.enc.state = .idle → 32 < len.toNat → exec (.encStart cmd seq len) s = .refused (.refuse .encOverlength))
    ∧ (s.enc.state = .idle → len.toNat ≤ 32 →
        exec (.encStart cmd seq len) s = .next { s with
          enc := { s.enc with cmd := cmd, seq := seq, len := len, idx := 0#6, crc := Config.crcInit, state := .sync0 }
          resp := some .none })

/-- 41_encoder R94 to R96: idle, nothing; then the two sync bytes, which are not folded. -/
def Obligations.EncNextIdleAndSyncBytes : Prop :=
  ∀ s : State,
    (s.enc.state = .idle → exec .encNext s = .next { s with resp := some .none })
    ∧ (s.enc.state = .sync0 →
        exec .encNext s = .next { s with enc := { s.enc with state := .sync1 }, resp := some (.tx 0xAA#8) })
    ∧ (s.enc.state = .sync1 →
        exec .encNext s = .next { s with enc := { s.enc with state := .cmd }, resp := some (.tx 0x55#8) })

/-- 41_encoder R97 to R99: the header bytes, each emitted and folded. -/
def Obligations.EncNextHeaderBytes : Prop :=
  ∀ s : State,
    (s.enc.state = .cmd →
        exec .encNext s = .next { s with
          enc := { s.enc with crc := crcStep s.enc.crc s.enc.cmd, state := .seq }, resp := some (.tx s.enc.cmd) })
    ∧ (s.enc.state = .seq →
        exec .encNext s = .next { s with
          enc := { s.enc with crc := crcStep s.enc.crc s.enc.seq, state := .len }, resp := some (.tx s.enc.seq) })
    ∧ (s.enc.state = .len →
        exec .encNext s = .next { s with
          enc := { s.enc with
            crc := crcStep s.enc.crc s.enc.len
            state := if s.enc.len = 0#8 then .crcHi else .payload }
          resp := some (.tx s.enc.len) })

/-- 41_encoder R100: the byte at ENC_IDX is emitted and folded, ENC_IDX advances, and the state moves on when it
reaches ENC_LEN. `EncInv` is R100's own condition, ENC_IDX < ENC_LEN <= 32. -/
def Obligations.EncNextPayloadByte : Prop :=
  ∀ s : State, EncInv s.enc → s.enc.state = .payload →
    ∃ (b : Byte) (i : BitVec 6), memRead s.enc.buf s.enc.idx.toNat = some b ∧ i.toNat = s.enc.idx.toNat + 1
      ∧ exec .encNext s = .next { s with
          enc := { s.enc with
            crc := crcStep s.enc.crc b
            idx := i
            state := if i.toNat = s.enc.len.toNat then .crcHi else .payload }
          resp := some (.tx b) }

/-- 41_encoder R101 and R102: the checksum, bits 15:8 first, ENC_CRC unchanged; then idle. -/
def Obligations.EncNextChecksumBytes : Prop :=
  ∀ s : State,
    (s.enc.state = .crcHi →
        exec .encNext s = .next { s with
          enc := { s.enc with state := .crcLo }, resp := some (.tx (s.enc.crc.extractLsb' 8 8)) })
    ∧ (s.enc.state = .crcLo →
        exec .encNext s = .next { s with
          enc := { s.enc with state := .idle }, resp := some (.tx (s.enc.crc.extractLsb' 0 8)) })

/-- ENC.NEXT completes in every state that meets the encoder's invariant, answers Tx where the encoder is busy and
None where it is idle, and touches nothing outside the encoder (41_encoder R93). -/
def Obligations.EncNextCompletesUnderTheInvariant : Prop :=
  decode 0x80000000#32 = .valid .encNext
  ∧ ∀ s : State, EncInv s.enc →
    ∃ (e : Encoder) (r : Resp), exec .encNext s = .next { s with enc := e, resp := some r }
      ∧ e.buf = s.enc.buf ∧ e.cmd = s.enc.cmd ∧ e.seq = s.enc.seq ∧ e.len = s.enc.len
      ∧ (s.enc.state = .idle → r = .none ∧ e = s.enc) ∧ (s.enc.state ≠ .idle → ∃ b, r = .tx b)

/-- 41_encoder R90, and 30_encoding R62 and R63: ENCODE is R90's sequence, defined for at most 32 payload bytes; it
gives exactly the byte sequences that are frames on the wire, each of 7 + len bytes. -/
def Obligations.EncodeGivesExactlyTheWireFrames : Prop :=
  (∀ (cmd seq : Byte) (p : List Byte), p.length ≤ 32 →
    encodeFrame cmd seq p
      = some ([0xAA#8, 0x55#8, cmd, seq, BitVec.ofNat 8 p.length] ++ p
          ++ [(crc16 Config.crcInit ([cmd, seq, BitVec.ofNat 8 p.length] ++ p)).extractLsb' 8 8,
              (crc16 Config.crcInit ([cmd, seq, BitVec.ofNat 8 p.length] ++ p)).extractLsb' 0 8]))
  ∧ (∀ (cmd seq : Byte) (p : List Byte), 32 < p.length → encodeFrame cmd seq p = none)
  ∧ (∀ (cmd seq : Byte) (p w : List Byte), encodeFrame cmd seq p = some w →
    isWireFrame w = true ∧ w.length = 7 + p.length ∧ p.length ≤ 32)
  ∧ (∀ w : List Byte, isWireFrame w = true →
    ∃ (cmd seq : Byte) (p : List Byte), encodeFrame cmd seq p = some w)

/-- 41_encoder R103, which the spec marks as derived from R90 to R102: after ENC.START on an idle encoder, the first 7 + n ENC.NEXT steps respond with the bytes of
ENCODE in order and the encoder is idle after the last, whatever other operations stand in between: each of those
leaves the encoder alone, and ENC.WRBUF and ENC.START change nothing but STATUS_EOVR. -/
def Obligations.SerializerEmitsTheEncodedFrame : Prop :=
  (∀ (i : Instr) (s : State), s.enc.state ≠ .idle → i ≠ .encNext →
    ∃ t : State, exec i s = .next t ∧ t.enc = s.enc
      ∧ (((∃ k b, i = .encWrbuf k b) ∨ ∃ c q n, i = .encStart c q n) →
          t = { s with eovr := true, resp := some .none }))
  ∧ ∀ (cmd seq len : Byte) (w : List Byte) (ops : List Instr) (s : State),
    s.enc.state = .idle → encodeFrame cmd seq (bufTake s.enc.buf len.toNat) = some w → len.toNat ≤ 32 →
    ops.count .encNext = 6 + len.toNat →
    ∃ (t : State) (rs : List (Option Resp)),
      runOps ((.encStart cmd seq len :: ops) ++ [.encNext]) s = some (t, rs)
      ∧ nextResponses ((.encStart cmd seq len :: ops) ++ [.encNext]) rs = w.map (fun b => some (.tx b))
      ∧ t.enc.state = .idle ∧ t.enc.buf = s.enc.buf

/-- 30_encoding R70, row ENC.FRAME: from an idle encoder the pseudo-instruction responds None while it stages and
starts the frame, then Tx of the bytes of ENCODE in order. -/
def Obligations.EncFrameTransmitsTheFrame : Prop :=
  ∀ (cmd seq : Byte) (p w : List Byte) (ops : List Instr) (s : State),
    s.enc.state = .idle → s.enc.buf.wf = true → encodeFrame cmd seq p = some w → encFrame cmd seq p = some ops →
    ∃ t : State,
      runOps ops s = some (t, List.replicate (p.length + 1) (some .none) ++ w.map (fun b => some (.tx b)))
      ∧ t.enc.state = .idle ∧ bufTake t.enc.buf p.length = p
      ∧ t = { s with enc := t.enc, resp := t.resp }

/-! ### Control and status -/

/-- 43_control R130: NOP changes nothing, only the all-zero word is NOP, and a word with OP = 0 and any other bit
set is invalid. -/
def Obligations.NopChangesNothing : Prop :=
  (∀ s : State, exec .nop s = .next { s with resp := some .none })
  ∧ (∀ w : Word, decode w = .valid .nop ↔ w = 0x00000000#32)
  ∧ (∀ w : Word, opField w = 0#4 → w ≠ 0x00000000#32 → (decode w).toOption = none)

/-- 43_control R131: the STATUS word by its formula, for a buffer of at most 32 bytes (which `BlockInv` gives); bit 3
reads 0, ESTATE at most 8, DCNT is the length; reading changes nothing. The codes of the states are those of
10_state R24 and R29. -/
def Obligations.StatusReadReturnsTheStatusWord : Prop :=
  decode 0x90000000#32 = .valid .statusRead
  ∧ [DecState.seekSync0, .seekSync1, .commandByte, .sequenceByte, .lengthByte, .payloadByte, .checksumHigh,
      .checksumLow].map dstateEnc = [0#3, 1#3, 2#3, 3#3, 4#3, 5#3, 6#3, 7#3]
  ∧ [EncState.idle, .sync0, .sync1, .cmd, .seq, .len, .payload, .crcHi, .crcLo].map estateEnc
      = [0#4, 1#4, 2#4, 3#4, 4#4, 5#4, 6#4, 7#4, 8#4]
  ∧ ∀ s : State, s.dec.buf.length ≤ 32 →
    ∃ v : Half,
      exec .statusRead s = .next { s with resp := some (.rdata v) }
      ∧ v.toNat = (dstateEnc s.dec.state).toNat + (estateEnc s.enc.state).toNat * 2 ^ 4
          + s.dec.buf.length * 2 ^ 8 + s.eovr.toNat * 2 ^ 14 + s.ill.toNat * 2 ^ 15
      ∧ v.getLsbD 3 = false ∧ (v.extractLsb' 4 4).toNat ≤ 8 ∧ (v.extractLsb' 8 6).toNat = s.dec.buf.length
      ∧ v.getLsbD 14 = s.eovr ∧ v.getLsbD 15 = s.ill

/-- 43_control R132. -/
def Obligations.StatusClrClearsTheStickyBits : Prop :=
  decode 0xA0000000#32 = .valid .statusClr
  ∧ ∀ s : State, exec .statusClr s = .next { s with eovr := false, ill := false, resp := some .none }

/-- 10_state R34, over every step: STATUS_EOVR is set only by ENC.START and ENC.WRBUF while busy, STATUS_ILL only
by an invalid word, and only STATUS.CLR and reset clear them. -/
def Obligations.StickyBitsChangeOnlyAsStated : Prop :=
  ∀ s t : State, step s = .next t →
    (s.eovr = false → t.eovr = true →
      s.enc.state ≠ .idle ∧ ∃ (w : Word) (rest : List PortInput), s.input = .word w :: rest
        ∧ ((∃ c q n, decode w = .valid (.encStart c q n)) ∨ ∃ k b, decode w = .valid (.encWrbuf k b)))
    ∧ (s.ill = false → t.ill = true →
        ∃ (w : Word) (rest : List PortInput), s.input = .word w :: rest ∧ (decode w).toOption = none)
    ∧ ((s.eovr = true ∧ t.eovr = false) ∨ (s.ill = true ∧ t.ill = false) →
        t.eovr = false ∧ t.ill = false
        ∧ ∃ rest : List PortInput, s.input = .reset :: rest
            ∨ ∃ w : Word, s.input = .word w :: rest ∧ decode w = .valid .statusClr)

/-! ### The whole machine -/

/-- 20_memory R54: each operation reads and writes only its unit's registers. An operation of the CRC unit is a
function of CRC_ACC that writes CRC_ACC and the response; of the decoder, of DEC_*; of the encoder, of ENC_* and
STATUS_EOVR; STATUS.CLR and invalid words touch only the sticky bits; NOP and STATUS.READ write no register. -/
def Obligations.UnitsAreIndependent : Prop :=
  (∀ i : Instr, ((∃ v, i = .crcLoad v) ∨ (∃ b, i = .crcUpdate b) ∨ i = .crcRead) →
    ∃ f : Half → Half × Resp,
      ∀ s : State, exec i s = .next { s with crcAcc := (f s.crcAcc).1, resp := some (f s.crcAcc).2 })
  ∧ (∀ i : Instr, (i = .decReset ∨ ∃ b, i = .decFeed b) →
    ∃ f : Decoder → Decoder × Resp,
      ∀ s : State, exec i s = .next { s with dec := (f s.dec).1, resp := some (f s.dec).2 })
  ∧ (∀ i : Instr, ((∃ k b, i = .encWrbuf k b) ∨ (∃ c q n, i = .encStart c q n) ∨ i = .encNext) →
    ∃ f : Encoder → Bool → Host.Outcome (Encoder × Bool × Resp) Fault Refusal,
      ∀ s : State, exec i s =
        match f s.enc s.eovr with
        | .next x => .next { s with enc := x.1, eovr := x.2.1, resp := some x.2.2 }
        | .fault x => .fault x
        | .refused x => .refused x)
  ∧ (∀ s : State, exec .statusClr s = .next { s with eovr := false, ill := false, resp := some .none })
  ∧ (∀ (w : Word) (s : State), (decode w).toOption = none →
      wordStep w s = .next { s with ill := true, resp := some .none })
  ∧ (∀ s : State, exec .nop s = .next { s with resp := some .none })
  ∧ ∃ f : DecState → Nat → EncState → Bool → Bool → Half, ∀ s : State,
      exec .statusRead s
        = .next { s with resp := some (.rdata (f s.dec.state s.dec.buf.length s.enc.state s.eovr s.ill)) }

/-- 10_state R28 items 1 to 5 and R32, which the spec marks as derived: every step, on any input, keeps the
invariants of both units and the canonical form of ENC_BUF (the model's choice, log entry 8). -/
def Obligations.EveryStepKeepsTheInvariant : Prop :=
  ∀ s t : State, BlockInv s → step s = .next t → BlockInv t

/-- The invariant holds right after reset (its clause on ENC_BUF's canonical form is the model's, log entry 8). -/
def Obligations.InvariantHoldsAtReset : Prop :=
  BlockInv State.reset

/-- The invariant bounds what R20 bounds: DEC_BUF at most 32 bytes, ENC_IDX at most 32, ENC_LEN at most 32 while
busy. -/
def Obligations.InvariantBoundsBuffers : Prop :=
  ∀ s : State, BlockInv s →
    s.dec.buf.length ≤ 32 ∧ s.enc.idx.toNat ≤ 32 ∧ (s.enc.state ≠ .idle → s.enc.len.toNat ≤ 32)

/-- 43_control R134: the one refused step is ENC.START with len > 32 while the encoder is idle, and EncOverlength is
its only reason. -/
def Obligations.OnlyOverlengthStartIsRefused : Prop :=
  (∀ a : RefuseReason, a = .encOverlength)
  ∧ ∀ (s : State) (r : Refusal),
    step s = .refused r ↔
      r = .refuse .encOverlength ∧ s.enc.state = .idle
        ∧ ∃ (cmd seq len : Byte) (rest : List PortInput),
            s.input = .word (encode (.encStart cmd seq len)) :: rest ∧ 32 < len.toNat

/-- 60_exceptions R140: the block has no fault, the model's one fault being its own choice (log entry 5); a step on
any input, in a state that meets the invariant, gives a next state or is refused. -/
def Obligations.NoStepFaultsUnderTheInvariant : Prop :=
  ∀ (s : State) (f : Fault), BlockInv s → step s ≠ .fault f

/-- 10_state R28 item 6 and 93_implementation_defined U5: what the hidden registers of a decoder in SEEK_SYNC0 and
an idle encoder hold never shows: two such states that agree on everything else give the same responses and the
same STATUS for ever, on every input. -/
def Obligations.HiddenRegistersNeverShow : Prop :=
  ∀ (s t : State) (n : Nat),
    s.dec.state = .seekSync0 → t.dec.state = .seekSync0 → s.dec.buf = [] → t.dec.buf = [] →
    s.enc.state = .idle → t.enc.state = .idle → s.enc.buf = t.enc.buf →
    s.crcAcc = t.crcAcc → s.eovr = t.eovr → s.ill = t.ill → s.resp = t.resp → s.input = t.input →
      observe (core.run n s) = observe (core.run n t)

/-- 70_reset_and_hazards R164: from any state that meets the invariant, DEC.RESET, at most 40 ENC.NEXT until one returns None,
and STATUS.CLR leave an initial decoder, an idle encoder and STATUS = 0x0000. -/
def Obligations.HostResyncReachesAKnownState : Prop :=
  ∀ s : State, BlockInv s →
    ∃ t : State, hostResync s = some t
      ∧ t.dec = decInit ∧ t.enc.state = .idle ∧ statusWord t = 0x0000#16
      ∧ t.crcAcc = s.crcAcc ∧ t.enc.buf = s.enc.buf ∧ t.input = s.input
end

