-- ==== Sys2Proof/Laws/Crc.lean ====
section
/-! SUPPORT. The checksum functions (40_crc R80, R81): folding onto the end of a sequence, and that a round, a byte
step and a whole fold lose no information. -/

namespace Sys2Proof.Machine

@[simp] theorem crc16_nil (a : Half) : crc16 a [] = a := rfl

@[simp] theorem crc16_cons (a : Half) (b : Byte) (s : List Byte) : crc16 a (b :: s) = crc16 (crcStep a b) s := rfl

theorem crc16_append (a : Half) (p q : List Byte) : crc16 a (p ++ q) = crc16 (crc16 a p) q := by
  induction p generalizing a with
  | nil => rfl
  | cons b p ih => exact ih (crcStep a b)

theorem crc16_concat (a : Half) (p : List Byte) (b : Byte) : crc16 a (p ++ [b]) = crcStep (crc16 a p) b := by
  rw [crc16_append]; rfl

/-- The three header bytes, folded one at a time, then the payload. -/
theorem frameCrc_eq (c q n : Byte) (p : List Byte) :
    frameCrc c q n p = crc16 (crcStep (crcStep (crcStep Config.crcInit c) q) n) p := rfl

theorem frameCrc_concat (c q n : Byte) (p : List Byte) (b : Byte) :
    frameCrc c q n (p ++ [b]) = crcStep (frameCrc c q n p) b := by
  rw [frameCrc_eq, frameCrc_eq, crc16_concat]

/-- A round is injective: its bit 0 tells whether bit 15 was set, and the other bits are those below it. -/
theorem crcRound_injective {a b : Half} (h : crcRound a = crcRound b) : a = b := by
  have bit : ∀ x : Half, (crcRound x).getLsbD 0 = x.getLsbD 15 := by
    intro x
    unfold crcRound
    cases hx : x.getLsbD 15 <;> simp [Config.poly]
  have h15 : a.getLsbD 15 = b.getLsbD 15 := by rw [← bit a, ← bit b, h]
  have hs : a <<< 1 = b <<< 1 := by
    unfold crcRound at h
    rw [h15] at h
    split at h
    · exact BitVec.xor_left_inj _ |>.1 h
    · exact h
  apply BitVec.eq_of_getLsbD_eq
  intro i hi
  by_cases hi15 : i = 15
  · rw [hi15]; exact h15
  · have := congrArg (fun x : Half => x.getLsbD (i + 1)) hs
    simpa only [BitVec.getLsbD_shiftLeft, show i + 1 < 16 by omega, decide_true, Bool.true_and,
      show ¬ i + 1 < 1 by omega, decide_false, Bool.not_false, Nat.add_sub_cancel] using this

theorem crcRounds_injective (n : Nat) {a b : Half} (h : crcRounds n a = crcRounds n b) : a = b := by
  induction n generalizing a b with
  | zero => exact h
  | succ n ih => exact crcRound_injective (ih h)

/-- For one byte, CrcStep is injective in the accumulator. -/
theorem crcStep_injective {a b : Half} {x : Byte} (h : crcStep a x = crcStep b x) : a = b :=
  (BitVec.xor_left_inj _).1 (crcRounds_injective 8 h)

/-- From one accumulator, CrcStep is injective in the byte. -/
theorem crcStep_injective_byte {a : Half} {x y : Byte} (h : crcStep a x = crcStep a y) : x = y := by
  have h1 := crcRounds_injective 8 h
  have h2 : (x.zeroExtend 16 <<< 8 : Half) = y.zeroExtend 16 <<< 8 := (BitVec.xor_right_inj _).1 h1
  apply BitVec.eq_of_getLsbD_eq
  intro i hi
  have := congrArg (fun z : Half => z.getLsbD (i + 8)) h2
  simpa only [BitVec.getLsbD_shiftLeft, show i + 8 < 16 by omega, decide_true, Bool.true_and,
    show ¬ i + 8 < 8 by omega, decide_false, Bool.not_false, Nat.add_sub_cancel, BitVec.truncate_eq_setWidth,
    BitVec.getLsbD_setWidth, show i < 16 by omega] using this

theorem crc16_injective {a b : Half} {s : List Byte} (h : crc16 a s = crc16 b s) : a = b := by
  induction s generalizing a b with
  | nil => exact h
  | cons x s ih => exact crcStep_injective (ih h)

/-- The two halves of a checksum put together give it back (20_memory R45). -/
theorem hi_or_lo (v : Half) : ((hiByte v).zeroExtend 16 <<< 8) ||| (loByte v).zeroExtend 16 = v := by
  apply BitVec.eq_of_getLsbD_eq
  intro i hi
  simp only [hiByte, loByte, BitVec.getLsbD_or, BitVec.getLsbD_shiftLeft, BitVec.truncate_eq_setWidth,
    BitVec.getLsbD_setWidth, BitVec.getLsbD_extractLsb']
  by_cases h8 : i < 8
  · simp [h8, hi]
  · simp [h8, show i - 8 < 8 by omega, show i - 8 < 16 by omega, show 8 + (i - 8) = i by omega, hi]

end Sys2Proof.Machine
end

