-- ==== Sys2Proof/Laws/Decode.lean ====
section
/-! SUPPORT. Matching a row of the opcode map is comparing the word above the row's operand bits (30_encoding R58),
and the numeric value of each operand field and each packed word. -/

namespace Sys2Proof

open Machine

/-- Masking off the low `k` bits and comparing with a pattern compares what lies above them. -/
theorem and_highMask_eq_iff (w b : Word) (k : Nat) (hk : k ≤ 32) (hb : b.toNat % 2 ^ k = 0) :
    w &&& (BitVec.allOnes 32 <<< k) = b ↔ w.toNat / 2 ^ k = b.toNat / 2 ^ k := by
  have h1 : w &&& (BitVec.allOnes 32 <<< k) = (w >>> k) <<< k := by
    apply BitVec.eq_of_getLsbD_eq
    intro i hi
    simp only [BitVec.getLsbD_and, BitVec.getLsbD_shiftLeft, BitVec.getLsbD_allOnes, BitVec.getLsbD_ushiftRight, hi,
      decide_true, Bool.true_and]
    by_cases hik : i < k
    · simp [hik]
    · simp [hik, show i - k < 32 by omega, show k + (i - k) = i by omega]
  rw [h1, ← BitVec.toNat_inj]
  simp only [BitVec.toNat_shiftLeft, BitVec.toNat_ushiftRight, Nat.shiftRight_eq_div_pow, Nat.shiftLeft_eq]
  have hlt := w.isLt
  have hle : w.toNat / 2 ^ k * 2 ^ k ≤ w.toNat := Nat.div_mul_le_self _ _
  rw [Nat.mod_eq_of_lt (by omega)]
  have hpos : 0 < 2 ^ k := Nat.two_pow_pos k
  have hbb : b.toNat = b.toNat / 2 ^ k * 2 ^ k := by
    have := Nat.div_add_mod b.toNat (2 ^ k); rw [hb] at this; rw [Nat.mul_comm]; omega
  constructor
  · intro h
    rw [hbb] at h
    exact Nat.eq_of_mul_eq_mul_right hpos h
  · intro h
    rw [h]; exact hbb.symm

theorem and_mask0 (w b : Word) : (w &&& 0xFFFFFFFF#32 = b) ↔ w.toNat = b.toNat := by
  have h := and_highMask_eq_iff w b 0 (by decide) (Nat.mod_one _)
  rw [show BitVec.allOnes 32 <<< 0 = 0xFFFFFFFF#32 by decide, Nat.pow_zero, Nat.div_one, Nat.div_one] at h
  exact h

theorem and_mask8 (w b : Word) (hb : b.toNat % 2 ^ 8 = 0) :
    (w &&& 0xFFFFFF00#32 = b) ↔ w.toNat / 2 ^ 8 = b.toNat / 2 ^ 8 :=
  and_highMask_eq_iff w b 8 (by decide) hb

theorem and_mask13 (w b : Word) (hb : b.toNat % 2 ^ 13 = 0) :
    (w &&& 0xFFFFE000#32 = b) ↔ w.toNat / 2 ^ 13 = b.toNat / 2 ^ 13 :=
  and_highMask_eq_iff w b 13 (by decide) hb

theorem and_mask16 (w b : Word) (hb : b.toNat % 2 ^ 16 = 0) :
    (w &&& 0xFFFF0000#32 = b) ↔ w.toNat / 2 ^ 16 = b.toNat / 2 ^ 16 :=
  and_highMask_eq_iff w b 16 (by decide) hb

theorem and_mask24 (w b : Word) (hb : b.toNat % 2 ^ 24 = 0) :
    (w &&& 0xFF000000#32 = b) ↔ w.toNat / 2 ^ 24 = b.toNat / 2 ^ 24 :=
  and_highMask_eq_iff w b 24 (by decide) hb

/-- Decoding as a chain of comparisons of numbers, one per row of the opcode map. -/
theorem decode_eq (w : Word) :
    decode w =
      if w.toNat = 0x00000000 then .valid .nop
      else if w.toNat / 2 ^ 16 = 0x1000 then .valid (.crcLoad (imm16Field w))
      else if w.toNat / 2 ^ 8 = 0x200000 then .valid (.crcUpdate (b8Field w))
      else if w.toNat = 0x30000000 then .valid .crcRead
      else if w.toNat = 0x40000000 then .valid .decReset
      else if w.toNat / 2 ^ 8 = 0x500000 then .valid (.decFeed (b8Field w))
      else if w.toNat / 2 ^ 13 = 0x30000 then .valid (.encWrbuf (idxField w) (b8Field w))
      else if w.toNat / 2 ^ 24 = 0x70 then .valid (.encStart (cmdField w) (seqField w) (lenField w))
      else if w.toNat = 0x80000000 then .valid .encNext
      else if w.toNat = 0x90000000 then .valid .statusRead
      else if w.toNat = 0xA0000000 then .valid .statusClr
      else .invalid (invalidReason w) := by
  have h0 := and_mask0 w 0x00000000#32
  have h1 := and_mask16 w 0x10000000#32 (by decide)
  have h2 := and_mask8 w 0x20000000#32 (by decide)
  have h3 := and_mask0 w 0x30000000#32
  have h4 := and_mask0 w 0x40000000#32
  have h5 := and_mask8 w 0x50000000#32 (by decide)
  have h6 := and_mask13 w 0x60000000#32 (by decide)
  have h7 := and_mask24 w 0x70000000#32 (by decide)
  have h8 := and_mask0 w 0x80000000#32
  have h9 := and_mask0 w 0x90000000#32
  have hA := and_mask0 w 0xA0000000#32
  simp only [BitVec.toNat_ofNat, Nat.reducePow, Nat.reduceMod, Nat.reduceDiv] at h0 h1 h2 h3 h4 h5 h6 h7 h8 h9 hA
  simp only [decode, opRows, decodeBy, h0, h1, h2, h3, h4, h5, h6, h7, h8, h9, hA, Nat.reducePow]

theorem ite_invalid (p : Prop) [Decidable p] (i : Instr) (d : Decoded) :
    (if p then Decoded.valid i else d).toOption = none ↔ ¬ p ∧ d.toOption = none := by
  by_cases h : p <;> simp [h, Decoded.toOption]

/-- The invalid words, by value: those that no row of the opcode map matches. -/
theorem decode_none_iff (w : Word) : (decode w).toOption = none ↔
    ¬ (w.toNat = 0x00000000 ∨ w.toNat / 2 ^ 16 = 0x1000 ∨ w.toNat / 2 ^ 8 = 0x200000 ∨ w.toNat = 0x30000000
      ∨ w.toNat = 0x40000000 ∨ w.toNat / 2 ^ 8 = 0x500000 ∨ w.toNat / 2 ^ 13 = 0x30000 ∨ w.toNat / 2 ^ 24 = 0x70
      ∨ w.toNat = 0x80000000 ∨ w.toNat = 0x90000000 ∨ w.toNat = 0xA0000000) := by
  rw [decode_eq]
  simp only [ite_invalid, not_or]
  simp [Decoded.toOption]

/-- The value of a word put together from its parts. -/
theorem toNat_packWord (op : BitVec 4) (x : BitVec 24) : (packWord op x).toNat = op.toNat * 2 ^ 28 + x.toNat := by
  have hx := x.isLt
  unfold packWord
  rw [BitVec.toNat_append, BitVec.toNat_append, ← Nat.shiftLeft_add_eq_or_of_lt hx,
    ← Nat.shiftLeft_add_eq_or_of_lt (0#4).isLt]
  simp only [Nat.shiftLeft_eq, BitVec.toNat_ofNat, Nat.zero_mod, Nat.add_zero]
  omega

theorem toNat_packH (v : Half) : (packH v).toNat = v.toNat := by
  unfold packH
  rw [BitVec.toNat_append]
  simp

theorem toNat_packB (b : Byte) : (packB b).toNat = b.toNat := by
  unfold packB
  rw [BitVec.toNat_append]
  simp

theorem toNat_packIB (k : BitVec 5) (b : Byte) : (packIB k b).toNat = k.toNat * 2 ^ 8 + b.toNat := by
  unfold packIB
  rw [BitVec.toNat_append, BitVec.toNat_append, ← Nat.shiftLeft_add_eq_or_of_lt b.isLt]
  simp [Nat.shiftLeft_eq]

theorem toNat_packCSL (c q n : Byte) : (packCSL c q n).toNat = c.toNat * 2 ^ 16 + q.toNat * 2 ^ 8 + n.toNat := by
  unfold packCSL
  rw [BitVec.toNat_append, BitVec.toNat_append, ← Nat.shiftLeft_add_eq_or_of_lt n.isLt,
    ← Nat.shiftLeft_add_eq_or_of_lt q.isLt]
  simp only [Nat.shiftLeft_eq]
  omega

/-- The value of a field of a word. -/
theorem toNat_field (w : Word) (lo n : Nat) : (w.extractLsb' lo n).toNat = w.toNat / 2 ^ lo % 2 ^ n := by
  rw [BitVec.extractLsb'_toNat, Nat.shiftRight_eq_div_pow]

end Sys2Proof
end

