-- ==== Sys2Proof/Laws/State.lean ====
section
/-! SUPPORT. One lemma per field of State for each update of State, so that no proof unfolds a record update. -/

namespace Sys2Proof.Machine

@[simp] theorem respond_crcAcc (r : Resp) (s : State) : (respond r s).crcAcc = s.crcAcc := rfl
@[simp] theorem respond_dec (r : Resp) (s : State) : (respond r s).dec = s.dec := rfl
@[simp] theorem respond_enc (r : Resp) (s : State) : (respond r s).enc = s.enc := rfl
@[simp] theorem respond_eovr (r : Resp) (s : State) : (respond r s).eovr = s.eovr := rfl
@[simp] theorem respond_ill (r : Resp) (s : State) : (respond r s).ill = s.ill := rfl
@[simp] theorem respond_resp (r : Resp) (s : State) : (respond r s).resp = some r := rfl
@[simp] theorem respond_input (r : Resp) (s : State) : (respond r s).input = s.input := rfl

@[simp] theorem setEovr_crcAcc (s : State) : (setEovr s).crcAcc = s.crcAcc := rfl
@[simp] theorem setEovr_dec (s : State) : (setEovr s).dec = s.dec := rfl
@[simp] theorem setEovr_enc (s : State) : (setEovr s).enc = s.enc := rfl
@[simp] theorem setEovr_eovr (s : State) : (setEovr s).eovr = true := rfl
@[simp] theorem setEovr_ill (s : State) : (setEovr s).ill = s.ill := rfl
@[simp] theorem setEovr_resp (s : State) : (setEovr s).resp = s.resp := rfl
@[simp] theorem setEovr_input (s : State) : (setEovr s).input = s.input := rfl

@[simp] theorem setIll_crcAcc (s : State) : (setIll s).crcAcc = s.crcAcc := rfl
@[simp] theorem setIll_dec (s : State) : (setIll s).dec = s.dec := rfl
@[simp] theorem setIll_enc (s : State) : (setIll s).enc = s.enc := rfl
@[simp] theorem setIll_eovr (s : State) : (setIll s).eovr = s.eovr := rfl
@[simp] theorem setIll_ill (s : State) : (setIll s).ill = true := rfl
@[simp] theorem setIll_resp (s : State) : (setIll s).resp = s.resp := rfl
@[simp] theorem setIll_input (s : State) : (setIll s).input = s.input := rfl

@[simp] theorem clearSticky_crcAcc (s : State) : (clearSticky s).crcAcc = s.crcAcc := rfl
@[simp] theorem clearSticky_dec (s : State) : (clearSticky s).dec = s.dec := rfl
@[simp] theorem clearSticky_enc (s : State) : (clearSticky s).enc = s.enc := rfl
@[simp] theorem clearSticky_eovr (s : State) : (clearSticky s).eovr = false := rfl
@[simp] theorem clearSticky_ill (s : State) : (clearSticky s).ill = false := rfl
@[simp] theorem clearSticky_resp (s : State) : (clearSticky s).resp = s.resp := rfl
@[simp] theorem clearSticky_input (s : State) : (clearSticky s).input = s.input := rfl

@[simp] theorem holdStep_crcAcc (s : State) : (holdStep s).crcAcc = s.crcAcc := rfl
@[simp] theorem holdStep_dec (s : State) : (holdStep s).dec = s.dec := rfl
@[simp] theorem holdStep_enc (s : State) : (holdStep s).enc = s.enc := rfl
@[simp] theorem holdStep_eovr (s : State) : (holdStep s).eovr = s.eovr := rfl
@[simp] theorem holdStep_ill (s : State) : (holdStep s).ill = s.ill := rfl
@[simp] theorem holdStep_resp (s : State) : (holdStep s).resp = none := rfl
@[simp] theorem holdStep_input (s : State) : (holdStep s).input = s.input := rfl

@[simp] theorem invalidWord_crcAcc (s : State) : (invalidWord s).crcAcc = s.crcAcc := rfl
@[simp] theorem invalidWord_dec (s : State) : (invalidWord s).dec = s.dec := rfl
@[simp] theorem invalidWord_enc (s : State) : (invalidWord s).enc = s.enc := rfl
@[simp] theorem invalidWord_eovr (s : State) : (invalidWord s).eovr = s.eovr := rfl
@[simp] theorem invalidWord_ill (s : State) : (invalidWord s).ill = true := rfl
@[simp] theorem invalidWord_resp (s : State) : (invalidWord s).resp = some .none := rfl
@[simp] theorem invalidWord_input (s : State) : (invalidWord s).input = s.input := rfl

@[simp] theorem presentWord_crcAcc (w : Word) (s : State) : (presentWord w s).crcAcc = s.crcAcc := rfl
@[simp] theorem presentWord_dec (w : Word) (s : State) : (presentWord w s).dec = s.dec := rfl
@[simp] theorem presentWord_enc (w : Word) (s : State) : (presentWord w s).enc = s.enc := rfl
@[simp] theorem presentWord_eovr (w : Word) (s : State) : (presentWord w s).eovr = s.eovr := rfl
@[simp] theorem presentWord_ill (w : Word) (s : State) : (presentWord w s).ill = s.ill := rfl
@[simp] theorem presentWord_resp (w : Word) (s : State) : (presentWord w s).resp = s.resp := rfl
@[simp] theorem presentWord_input (w : Word) (s : State) : (presentWord w s).input = .word w :: s.input := rfl

@[simp] theorem resetStep_crcAcc (s : State) : (resetStep s).crcAcc = State.reset.crcAcc := rfl
@[simp] theorem resetStep_dec (s : State) : (resetStep s).dec = State.reset.dec := rfl
@[simp] theorem resetStep_enc (s : State) : (resetStep s).enc = State.reset.enc := rfl
@[simp] theorem resetStep_eovr (s : State) : (resetStep s).eovr = State.reset.eovr := rfl
@[simp] theorem resetStep_ill (s : State) : (resetStep s).ill = State.reset.ill := rfl
@[simp] theorem resetStep_resp (s : State) : (resetStep s).resp = State.reset.resp := rfl
@[simp] theorem resetStep_input (s : State) : (resetStep s).input = s.input := rfl

@[simp] theorem startFrame_state (c q n : Byte) (e : Encoder) : (startFrame c q n e).state = .sync0 := rfl
@[simp] theorem startFrame_cmd (c q n : Byte) (e : Encoder) : (startFrame c q n e).cmd = c := rfl
@[simp] theorem startFrame_seq (c q n : Byte) (e : Encoder) : (startFrame c q n e).seq = q := rfl
@[simp] theorem startFrame_len (c q n : Byte) (e : Encoder) : (startFrame c q n e).len = n := rfl
@[simp] theorem startFrame_idx (c q n : Byte) (e : Encoder) : (startFrame c q n e).idx = 0#6 := rfl
@[simp] theorem startFrame_crc (c q n : Byte) (e : Encoder) : (startFrame c q n e).crc = Config.crcInit := rfl
@[simp] theorem startFrame_buf (c q n : Byte) (e : Encoder) : (startFrame c q n e).buf = e.buf := rfl

@[simp] theorem decInit_state : decInit.state = .seekSync0 := rfl
@[simp] theorem decInit_buf : decInit.buf = [] := rfl

end Sys2Proof.Machine
end

