-- ==== Sys2Proof/Laws/Run.lean ====
section
/-! SUPPORT. What a run of operations does: one run after another, and what every operation leaves alone. -/

namespace Sys2Proof.Machine

/-- A run of two lists is the run of the second after the run of the first. -/
theorem runOps_append (a b : List Instr) (s : State) :
    runOps (a ++ b) s = (runOps a s).bind (fun u => (runOps b u.1).map (fun v => (v.1, u.2 ++ v.2))) := by
  induction a generalizing s with
  | nil => simp [runOps]
  | cons i a ih =>
    simp only [List.cons_append, runOps]
    cases exec i s with
    | next t => simp only [ih, Option.map_bind, Option.bind_map]; congr 1; funext u; simp [Function.comp_def]
    | fault => rfl
    | refused => rfl

/-- Every operation responds, and takes nothing from the host's stream. -/
theorem exec_responds {i : Instr} {s t : State} (h : exec i s = .next t) :
    t.input = s.input ∧ ∃ r, t.resp = some r := by
  cases i
  case encWrbuf =>
    simp only [exec, execEncWrbuf] at h
    split at h <;> (cases h; exact ⟨rfl, _, rfl⟩)
  case encStart =>
    simp only [exec, execEncStart] at h
    split at h
    · cases h; exact ⟨rfl, _, rfl⟩
    · split at h
      · cases h
      · cases h; exact ⟨rfl, _, rfl⟩
  case encNext =>
    simp only [exec, execEncNext] at h
    split at h
    · cases h; exact ⟨rfl, _, rfl⟩
    · cases h
  all_goals (cases h; exact ⟨rfl, _, rfl⟩)

/-- What an operation does does not depend on what the host presents later, nor on the last response. -/
theorem exec_host_fields (i : Instr) (s : State) (x : List PortInput) (r : Option Resp) :
    exec i { s with input := x, resp := r } =
      match exec i s with
      | .next t => .next { t with input := x }
      | .fault f => .fault f
      | .refused q => .refused q := by
  cases i
  case encWrbuf =>
    simp only [exec, execEncWrbuf]
    split <;> rfl
  case encStart =>
    simp only [exec, execEncStart]
    split
    · rfl
    · split <;> rfl
  case encNext =>
    simp only [exec, execEncNext]
    split <;> simp_all [respond]
  all_goals rfl

/-- An operation is refused for over-length only, by ENC.START on an idle encoder (43_control R134). -/
theorem exec_refused {i : Instr} {s : State} {r : Refusal} (h : exec i s = .refused r) :
    r = .refuse .encOverlength ∧ s.enc.state = .idle
      ∧ ∃ c q n : Byte, i = .encStart c q n ∧ Config.maxLen < n.toNat := by
  cases i
  case encWrbuf =>
    simp only [exec, execEncWrbuf] at h
    split at h <;> cases h
  case encStart c q n =>
    simp only [exec, execEncStart] at h
    split at h
    · cases h
    · next hb =>
      split at h
      · next hn => cases h; exact ⟨rfl, by simpa [encBusy] using hb, c, q, n, rfl, hn⟩
      · cases h
  case encNext =>
    simp only [exec, execEncNext] at h
    split at h <;> cases h
  all_goals cases h

/-- No step is refused as not modelled: over-length is the only reason. -/
theorem step_refused {s : State} {r : Refusal} (h : step s = .refused r) : r = .refuse .encOverlength := by
  unfold step portStep at h
  split at h
  · cases h
  · cases h
  · unfold wordStep at h
    split at h
    · exact (exec_refused h).1
    · cases h

end Sys2Proof.Machine
end

