-- ==== Sys2Proof/Laws/Decoder.lean ====
section
/-! SUPPORT. The decoder: everything one byte can do, that it keeps the invariant, and a run of DEC.FEED steps as a
function of the decoder alone. -/

namespace Sys2Proof.Machine

/-- DEC.FEED answers None, or it is in CHECKSUM_LOW, reinitialises the decoder, and answers by comparing the
checksums (42_decoder R115). -/
theorem feedByte_response (b : Byte) (d : Decoder) :
    (d.state ≠ .checksumLow ∧ (feedByte b d).2 = .none)
    ∨ (d.state = .checksumLow ∧ (feedByte b d).1 = decInit
        ∧ ((d.rxCrc ||| b.zeroExtend 16 = d.crc ∧ (feedByte b d).2 = .frameOut
              { cmd := d.cmd, seq := d.seq, len := d.len, payload := d.buf, crc := d.crc })
          ∨ (d.rxCrc ||| b.zeroExtend 16 ≠ d.crc ∧ (feedByte b d).2 = .mismatch
              { cmd := d.cmd, seq := d.seq, len := d.len, rxCrc := d.rxCrc ||| b.zeroExtend 16, calcCrc := d.crc }))) := by
  unfold feedByte
  cases h : d.state <;>
    simp only [feedSeekSync0, feedSeekSync1, feedCommandByte, feedSequenceByte, feedLengthByte, feedPayloadByte,
      feedChecksumHigh, feedChecksumLow] <;> (repeat' split) <;> simp_all

theorem decInit_inv : DecInv decInit := by
  unfold DecInv decInit
  simp

/-- The high half assigned by CHECKSUM_HIGH has a zero low half (10_state R28 item 5). -/
theorem loByte_shifted (b : Byte) : loByte (b.zeroExtend 16 <<< 8) = 0x00#8 := by
  revert b; decide

/-- Every byte keeps the decoder's invariant (10_state R28). -/
theorem feedByte_inv (b : Byte) {d : Decoder} (h : DecInv d) : DecInv (feedByte b d).1 := by
  obtain ⟨hbuf, hcmd, hseq, hlen, hpay, hchk, -⟩ := h
  unfold feedByte
  cases hs : d.state <;> simp only
  case seekSync0 =>
    unfold feedSeekSync0
    split <;> simp [DecInv, hbuf (by simp [hs]), hs]
  case seekSync1 =>
    unfold feedSeekSync1
    split <;> simp [DecInv, hbuf (by simp [hs])]
  case commandByte =>
    simp [DecInv, feedCommandByte, hbuf (by simp [hs]), hcmd hs]
  case sequenceByte =>
    simp [DecInv, feedSequenceByte, hbuf (by simp [hs]), hseq hs]
  case lengthByte =>
    unfold feedLengthByte
    split
    · exact decInit_inv
    · split
      · next hb0 => simp [DecInv, hb0, hbuf (by simp [hs]), hlen hs, frameCrc_eq, Config.maxLen]
      · next hgt hb0 =>
        have hne : b.toNat ≠ 0 := fun h0 => hb0 (BitVec.eq_of_toNat_eq (by simpa using h0))
        simp [DecInv, hlen hs, frameCrc_eq]
        omega
  case payloadByte =>
    obtain ⟨h1, h2, h3, h4⟩ := hpay hs
    unfold feedPayloadByte
    simp only [List.length_append, List.length_cons, List.length_nil]
    split
    · next he => simp [DecInv, h4, frameCrc_concat, he, h2]
    · next he => simp [DecInv, h4, frameCrc_concat, h1, h2]; omega
  case checksumHigh =>
    have := hchk (.inl hs)
    simp only [DecInv, feedChecksumHigh, loByte_shifted]
    simp [this]
  case checksumLow =>
    unfold feedChecksumLow
    simp only
    split <;> exact decInit_inv

/-- A run of DEC.FEED steps on the decoder alone: the decoder after them, and the responses. -/
def feedBytes : List Byte → Decoder → Decoder × List (Option Resp)
  | [], d => (d, [])
  | b :: rest, d =>
    ((feedBytes rest (feedByte b d).1).1, some (feedByte b d).2 :: (feedBytes rest (feedByte b d).1).2)

/-- Running DEC.FEED over bytes is `feedBytes` on the decoder, and changes nothing else but the response. -/
theorem runOps_decFeeds (bs : List Byte) (s : State) :
    ∃ r, runOps (decFeeds bs) s = some ({ s with dec := (feedBytes bs s.dec).1, resp := r }, (feedBytes bs s.dec).2) := by
  induction bs generalizing s with
  | nil => exact ⟨s.resp, rfl⟩
  | cons b bs ih =>
    obtain ⟨r, hr⟩ := ih (respond (feedByte b s.dec).2 { s with dec := (feedByte b s.dec).1 })
    refine ⟨r, ?_⟩
    simp only [decFeeds, List.map_cons, runOps, exec, execDecFeed] at hr ⊢
    rw [hr]
    rfl

theorem feedBytes_append (a b : List Byte) (d : Decoder) :
    feedBytes (a ++ b) d
      = ((feedBytes b (feedBytes a d).1).1, (feedBytes a d).2 ++ (feedBytes b (feedBytes a d).1).2) := by
  induction a generalizing d with
  | nil => rfl
  | cons x a ih => simp [feedBytes, ih]

theorem feedBytes_inv (bs : List Byte) {d : Decoder} (h : DecInv d) : DecInv (feedBytes bs d).1 := by
  induction bs generalizing d with
  | nil => exact h
  | cons b bs ih => exact ih (feedByte_inv b h)

/-- The payload bytes of a frame, fed in PAYLOAD_BYTE one after another, fill the buffer and the checksum. -/
theorem feedBytes_payload (p : List Byte) (d : Decoder) (hs : d.state = .payloadByte) (hp : p ≠ [])
    (hl : d.buf.length + p.length = d.len.toNat) :
    feedBytes p d
      = ({ d with buf := d.buf ++ p, crc := crc16 d.crc p, state := .checksumHigh },
          List.replicate p.length (some .none)) := by
  induction p generalizing d with
  | nil => exact absurd rfl hp
  | cons b p ih =>
    by_cases hp' : p = []
    · subst hp'
      simp only [List.length_cons, List.length_nil] at hl
      simp [feedBytes, feedByte, hs, feedPayloadByte, hl]
    · have hpos : 0 < p.length := List.length_pos_iff.2 hp'
      simp only [List.length_cons] at hl
      have hne : ¬ (d.buf.length + 1 = d.len.toNat) := by omega
      simp only [feedBytes]
      rw [ih _ (by simp [feedByte, hs, feedPayloadByte, hne]) hp'
        (by simp [feedByte, hs, feedPayloadByte]; omega)]
      simp [feedByte, hs, feedPayloadByte, List.replicate_succ]

end Sys2Proof.Machine
end

