-- ==== Sys2Proof/Laws/Memory.lean ====
section
/-! SUPPORT. ENC_BUF: what a read gives after a write, and that the canonical form is kept (20_memory R40, R41). -/

namespace Sys2Proof.Machine

theorem cellsFrom_cons (lo a : Nat) (v : Byte) (m : Memory) :
    cellsFrom lo ((a, v) :: m) = true ↔ lo ≤ a ∧ a < Config.encBufSize ∧ v ≠ resetByte ∧ cellsFrom (a + 1) m = true := by
  simp [cellsFrom, and_assoc]

theorem cellsFrom_mono {lo hi : Nat} (h : lo ≤ hi) {m : Memory} (hm : cellsFrom hi m = true) : cellsFrom lo m = true := by
  cases m with
  | nil => rfl
  | cons c rest =>
    obtain ⟨a, v⟩ := c
    rw [cellsFrom_cons] at hm ⊢
    exact ⟨by omega, hm.2⟩

/-- An index below every listed one reads as at reset. -/
theorem cellAt_below {lo i : Nat} {m : Memory} (hm : cellsFrom lo m = true) (h : i < lo) : cellAt m i = resetByte := by
  induction m generalizing lo with
  | nil => rfl
  | cons c rest ih =>
    obtain ⟨a, v⟩ := c
    rw [cellsFrom_cons] at hm
    rw [cellAt, if_neg (by omega)]
    exact ih hm.2.2.2 (by omega)

/-- An index outside ENC_BUF is never listed. -/
theorem cellAt_outside {lo i : Nat} {m : Memory} (hm : cellsFrom lo m = true) (h : Config.encBufSize ≤ i) :
    cellAt m i = resetByte := by
  induction m generalizing lo with
  | nil => rfl
  | cons c rest ih =>
    obtain ⟨a, v⟩ := c
    rw [cellsFrom_cons] at hm
    rw [cellAt, if_neg (by omega)]
    exact ih hm.2.2.2

theorem cellAt_putCell {lo : Nat} {m : Memory} (hm : cellsFrom lo m = true) (i : Nat) (v : Byte) (k : Nat) :
    cellAt (putCell m i v) k = if i = k then v else cellAt m k := by
  induction m generalizing lo with
  | nil =>
    by_cases hv : v = resetByte <;> simp [putCell, cellAt, hv]
  | cons c rest ih =>
    obtain ⟨a, u⟩ := c
    rw [cellsFrom_cons] at hm
    obtain ⟨hlo, -, -, hr⟩ := hm
    have hbelow : ∀ j, j ≤ a → cellAt rest j = resetByte := fun j hj => cellAt_below hr (by omega)
    unfold putCell
    split
    · next hi =>
      split
      · next hv =>
        by_cases hk : i = k
        · rw [if_pos hk, cellAt, if_neg (by omega), hbelow k (by omega), hv]
        · rw [if_neg hk]
      · next hv => simp [cellAt]
    · split
      · next hi hia =>
        subst hia
        split
        · next hv =>
          by_cases hk : i = k
          · rw [if_pos hk, ← hk, hbelow i (by omega), hv]
          · rw [if_neg hk, cellAt, if_neg hk]
        · next hv => by_cases hk : i = k <;> simp [cellAt, hk]
      · next hi hia =>
        by_cases hak : a = k
        · rw [cellAt, if_pos hak, if_neg (by omega), cellAt, if_pos hak]
        · rw [cellAt, if_neg hak, ih hr, cellAt, if_neg hak]

theorem cellsFrom_putCell {lo : Nat} {m : Memory} (hm : cellsFrom lo m = true) {i : Nat} (hlo : lo ≤ i)
    (hi : i < Config.encBufSize) (v : Byte) : cellsFrom lo (putCell m i v) = true := by
  induction m generalizing lo with
  | nil =>
    unfold putCell
    split
    · rfl
    · next hv => rw [cellsFrom_cons]; exact ⟨hlo, hi, hv, rfl⟩
  | cons c rest ih =>
    obtain ⟨a, u⟩ := c
    have hm' := hm
    rw [cellsFrom_cons] at hm
    obtain ⟨hla, ha, hu, hr⟩ := hm
    unfold putCell
    split
    · next hia =>
      split
      · exact hm'
      · next hv =>
        rw [cellsFrom_cons]
        exact ⟨hlo, hi, hv, (cellsFrom_cons _ _ _ _).2 ⟨by omega, ha, hu, hr⟩⟩
    · next hia =>
      split
      · next hEq =>
        split
        · exact cellsFrom_mono (by omega) hr
        · next hv => rw [cellsFrom_cons]; exact ⟨hlo, hi, hv, by rw [hEq]; exact hr⟩
      · next hne => rw [cellsFrom_cons]; exact ⟨hla, ha, hu, ih hr (by omega)⟩

/-- MemWrite keeps the canonical form. -/
theorem memWrite_wf {m : Memory} (hm : m.wf = true) (i : BitVec 5) (v : Byte) : (memWrite m i v).wf = true :=
  cellsFrom_putCell hm (Nat.zero_le _) i.isLt v

/-- ENC_BUF right after reset is in canonical form. -/
theorem reset_wf : State.reset.enc.buf.wf = true := rfl

/-- A byte reads back as written, and every other index as before. -/
theorem cellAt_memWrite {m : Memory} (hm : m.wf = true) (i : BitVec 5) (v : Byte) (k : Nat) :
    cellAt (memWrite m i v) k = if i.toNat = k then v else cellAt m k :=
  cellAt_putCell hm i.toNat v k

/-- Memories in canonical form that read alike are the same list. -/
theorem cells_ext {lo : Nat} {m n : Memory} (hm : cellsFrom lo m = true) (hn : cellsFrom lo n = true)
    (h : ∀ k, cellAt m k = cellAt n k) : m = n := by
  induction m generalizing lo n with
  | nil =>
    cases n with
    | nil => rfl
    | cons c rest =>
      obtain ⟨a, v⟩ := c
      rw [cellsFrom_cons] at hn
      have := h a
      simp only [cellAt, if_true] at this
      exact absurd this.symm hn.2.2.1
  | cons c rest ih =>
    obtain ⟨a, v⟩ := c
    cases n with
    | nil =>
      rw [cellsFrom_cons] at hm
      have := h a
      simp only [cellAt, if_true] at this
      exact absurd this hm.2.2.1
    | cons d rest' =>
      obtain ⟨b, w⟩ := d
      rw [cellsFrom_cons] at hm hn
      obtain ⟨-, -, hv, hr⟩ := hm
      obtain ⟨-, -, hw, hr'⟩ := hn
      have hab : a = b := by
        rcases Nat.lt_trichotomy a b with hlt | heq | hgt
        · have := h a
          rw [cellAt, if_pos rfl, cellAt, if_neg (by omega), cellAt_below hr' (by omega)] at this
          exact absurd this hv
        · exact heq
        · have := h b
          rw [cellAt, if_neg (by omega), cellAt_below hr (by omega), cellAt, if_pos rfl] at this
          exact absurd this.symm hw
      subst hab
      have hvw : v = w := by have := h a; simpa [cellAt] using this
      subst hvw
      congr 1
      refine ih hr hr' (fun k => ?_)
      by_cases hk : a = k
      · subst hk; rw [cellAt_below hr (by omega), cellAt_below hr' (by omega)]
      · have := h k; rwa [cellAt, if_neg hk, cellAt, if_neg hk] at this

@[simp] theorem bufTake_length (m : Memory) (n : Nat) : (bufTake m n).length = n := by simp [bufTake]

theorem bufTake_succ (m : Memory) (n : Nat) : bufTake m (n + 1) = bufTake m n ++ [cellAt m n] := by
  simp [bufTake, List.range_succ]

@[simp] theorem bufTake_zero (m : Memory) : bufTake m 0 = [] := rfl

end Sys2Proof.Machine
end

