-- ==== Sys2Proof/Laws/Encoder.lean ====
section
/-! SUPPORT. The encoder: what one ENC.NEXT can do, when it has an answer, and that the operations keep the
invariant. -/

namespace Sys2Proof.Machine

/-- ENC.NEXT changes neither the latched operands nor ENC_BUF, and answers Tx exactly where the encoder is busy
(41_encoder R94 to R102). -/
theorem encAdvance_frame {e f : Encoder} {r : Resp} (h : encAdvance e = some (f, r)) :
    f.cmd = e.cmd ∧ f.seq = e.seq ∧ f.len = e.len ∧ f.buf = e.buf
      ∧ ((e.state = .idle ∧ r = .none ∧ f = e) ∨ (e.state ≠ .idle ∧ ∃ b, r = .tx b)) := by
  unfold encAdvance at h
  cases hs : e.state <;> rw [hs] at h
  case payload =>
    simp only [Option.map_eq_some_iff] at h
    obtain ⟨b, -, h⟩ := h
    cases h
    simp
  all_goals
    cases h
    simp

/-- In ENC_PAYLOAD the invariant puts ENC_IDX within ENC_BUF (41_encoder R100). -/
theorem memRead_of_inv {e : Encoder} (h : EncInv e) (hs : e.state = .payload) :
    memRead e.buf e.idx.toNat = some (cellAt e.buf e.idx.toNat) := by
  have h1 := h.2.1 (by simp [hs])
  have h2 := h.2.2.2.1 hs
  unfold memRead
  rw [if_pos (show e.idx.toNat < Config.encBufSize from Nat.lt_of_lt_of_le h2.2 h1)]

/-- Under the invariant ENC.NEXT always has an answer (20_memory R41). -/
theorem encAdvance_isSome {e : Encoder} (h : EncInv e) : ∃ f r, encAdvance e = some (f, r) := by
  unfold encAdvance
  cases hs : e.state
  case payload => exact ⟨_, _, by rw [memRead_of_inv h hs]; rfl⟩
  all_goals exact ⟨_, _, rfl⟩

theorem idx_succ {e : Encoder} (h : EncInv e) (hs : e.state = .payload) :
    (e.idx + 1#6).toNat = e.idx.toNat + 1 := by
  have h1 := h.2.1 (by simp [hs])
  have h2 := h.2.2.2.1 hs
  have : e.idx.toNat < 32 := Nat.lt_of_lt_of_le h2.2 h1
  rw [BitVec.toNat_add, BitVec.toNat_ofNat]
  omega

/-- ENC.NEXT keeps the encoder's invariant (10_state R32). -/
theorem encAdvance_inv {e f : Encoder} {r : Resp} (hi : EncInv e) (h : encAdvance e = some (f, r)) : EncInv f := by
  have hi' := hi
  obtain ⟨hidx, hlen, hz, hpay, hcrc, h0, h1, h2, h3⟩ := hi
  unfold encAdvance at h
  cases hs : e.state <;> rw [hs] at h <;> simp only at h
  case idle => cases h; exact hi'
  case sync0 =>
    cases h
    simp [EncInv, hlen (by simp [hs]), hz (by simp [hs]), h0 (by simp [hs])]
  case sync1 =>
    cases h
    simp [EncInv, hlen (by simp [hs]), hz (by simp [hs]), h0 (by simp [hs])]
  case cmd =>
    cases h
    simp [EncInv, hlen (by simp [hs]), hz (by simp [hs]), h0 (by simp [hs])]
  case seq =>
    cases h
    simp [EncInv, hlen (by simp [hs]), hz (by simp [hs]), h1 hs]
  case len =>
    cases h
    have hz' := hz (by simp [hs])
    by_cases h00 : e.len = 0#8
    · simp [EncInv, hz', h2 hs, h00, frameCrc_eq]
    · have hne : e.len.toNat ≠ 0 := fun h => h00 (BitVec.eq_of_toNat_eq (by simpa using h))
      have : 1 ≤ e.len.toNat := by omega
      simp [EncInv, hlen (by simp [hs]), hz', h2 hs, h00, frameCrc_eq]
      omega
  case payload =>
    rw [memRead_of_inv hi' hs] at h
    cases h
    have hs1 := idx_succ hi' hs
    have hl := hlen (by simp [hs])
    obtain ⟨hp1, hp2⟩ := hpay hs
    have hfold := h3 (by simp [hs])
    by_cases he : e.idx.toNat + 1 = e.len.toNat
    · simp only [EncInv, hs1, he, if_true]
      simp [hl, hfold, ← frameCrc_concat, ← bufTake_succ, he]
    · simp only [EncInv, hs1, he, if_false]
      simp [hl, hp1, hfold, ← frameCrc_concat, ← bufTake_succ]
      omega
  case crcHi =>
    cases h
    simp [EncInv, hlen (by simp [hs]), hcrc (by simp [hs]), h3 (by simp [hs])]
  case crcLo =>
    cases h
    simp [EncInv, hidx]

/-- A start keeps the encoder's invariant (41_encoder R92). -/
theorem startFrame_inv (c q : Byte) {n : Byte} (hn : n.toNat ≤ Config.maxLen) (e : Encoder) :
    EncInv (startFrame c q n e) := by
  simp [EncInv, startFrame, hn]

/-- Writing ENC_BUF while idle keeps the encoder's invariant: nothing there depends on its contents. -/
theorem encInv_idle_buf {e : Encoder} (h : EncInv e) (hs : e.state = .idle) (m : Memory) :
    EncInv { e with buf := m } := by
  simp [EncInv, hs, h.1]

end Sys2Proof.Machine
end

