-- ==== Sys2Proof/Laws/PerInstr.lean ====
section
/-! SUPPORT. The family OperandsFit: every operation, as syntax, passes the range checks of its source line
(30_encoding R57, R69). -/

namespace Sys2Proof.Laws.OperandsFit

/-- Every operand of the operation fits the field that carries it. -/
def Statement (i : Instr) : Prop := i.wellFormed = true

theorem nop : Statement .nop := rfl

theorem crcLoad (imm16 : Half) : Statement (.crcLoad imm16) := decide_eq_true imm16.isLt

theorem crcUpdate (b8 : Byte) : Statement (.crcUpdate b8) := decide_eq_true b8.isLt

theorem crcRead : Statement .crcRead := rfl

theorem decReset : Statement .decReset := rfl

theorem decFeed (b8 : Byte) : Statement (.decFeed b8) := decide_eq_true b8.isLt

theorem encWrbuf (idx : BitVec 5) (b8 : Byte) : Statement (.encWrbuf idx b8) :=
  Bool.and_eq_true_iff.2 ⟨decide_eq_true idx.isLt, decide_eq_true b8.isLt⟩

theorem encStart (cmd seq len : Byte) : Statement (.encStart cmd seq len) :=
  Bool.and_eq_true_iff.2
    ⟨Bool.and_eq_true_iff.2 ⟨decide_eq_true cmd.isLt, decide_eq_true seq.isLt⟩, decide_eq_true len.isLt⟩

theorem encNext : Statement .encNext := rfl

theorem statusRead : Statement .statusRead := rfl

theorem statusClr : Statement .statusClr := rfl

end Sys2Proof.Laws.OperandsFit
end

