-- ==== Sys2Proof/Laws/Wire.lean ====
section
/-! SUPPORT. The reference encoder: what its answer is, and the length byte (41_encoder R90). -/

namespace Sys2Proof.Machine

/-- ENCODE answers only for a payload of at most 32 bytes, and with R90's sequence. -/
theorem encodeFrame_some {c q : Byte} {p w : List Byte} (h : encodeFrame c q p = some w) :
    p.length ≤ Config.maxLen
      ∧ w = [Config.sync0, Config.sync1, c, q, lenByte p] ++ p
          ++ [hiByte (frameCrc c q (lenByte p) p), loByte (frameCrc c q (lenByte p) p)] := by
  unfold encodeFrame at h
  split at h
  · next hl => exact ⟨hl, (Option.some.inj h).symm⟩
  · cases h

/-- The length byte holds the payload's length. -/
theorem lenByte_toNat {p : List Byte} (h : p.length ≤ Config.maxLen) : (lenByte p).toNat = p.length := by
  rw [lenByte, BitVec.toNat_ofNat]
  exact Nat.mod_eq_of_lt (Nat.lt_of_le_of_lt h (by decide))

end Sys2Proof.Machine
end

