-- ==== Sys2Proof/Tests/Slice0.lean ====
section
/-! SUPPORT. Small tests against the numbers of spec/95_test_vectors.md, and for every statement with hypotheses a
theorem that a concrete state and concrete operands meet them (`witness_…`). -/

namespace Sys2Proof.Tests

open Sys2Proof.Machine

/-! ### Helpers -/

/-- The next state of an outcome. -/
def after : Host.Outcome State Fault Refusal → Option State
  | .next s => some s
  | _ => none

/-- The refusal of an outcome. -/
def refusal : Host.Outcome State Fault Refusal → Option Refusal
  | .refused r => some r
  | _ => none

/-- The fault of an outcome. -/
def faultOf : Host.Outcome State Fault Refusal → Option Fault
  | .fault f => some f
  | _ => none

/-- Just after reset but for the decoder. -/
def withDec (d : Decoder) : State := { State.reset with dec := d }

/-- Just after reset but for the encoder. -/
def withEnc (e : Encoder) : State := { State.reset with enc := e }

/-- Just after reset, with words to come. -/
def withInput (x : List PortInput) : State := { State.reset with input := x }

/-- The decoder of the ack frame of 95_test_vectors 2.3, in a state of its header. -/
def ackDec (st : DecState) (crc : Half) : Decoder :=
  { decInit with state := st, cmd := 0x82#8, seq := 0x02#8, crc := crc }

/-- The same with the length byte taken and a payload so far. -/
def ackPay (st : DecState) (p : List Byte) (crc rx : Half) : Decoder :=
  { decInit with state := st, cmd := 0x82#8, seq := 0x02#8, len := 0x02#8, buf := p, crc := crc, rxCrc := rx }

/-- The encoder of the ping of 95_test_vectors 2.2, in one of its states. -/
def pingEnc (st : EncState) (crc : Half) : Encoder :=
  { Encoder.reset with state := st, cmd := 0x05#8, seq := 0x01#8, crc := crc }

/-- The encoder of the ack, with its payload staged. -/
def ackEnc (st : EncState) (idx : BitVec 6) (crc : Half) : Encoder :=
  { state := st, cmd := 0x82#8, seq := 0x02#8, len := 0x02#8, idx := idx, crc := crc, buf := [(0, 0x05#8)] }

/-- The ping on the wire (95_test_vectors S1). -/
def ping : List Byte := [0xAA#8, 0x55#8, 0x05#8, 0x01#8, 0x00#8, 0x14#8, 0x5D#8]

/-! ### Well-formedness of source lines (30_encoding R69) -/

theorem test_wellFormed_imm16 :
    (SourceOp.crcLoad 65536).wellFormed = false ∧ (SourceOp.crcLoad 65535).wellFormed = true := by decide

theorem test_wellFormed_b8 :
    (SourceOp.crcUpdate 256).wellFormed = false ∧ (SourceOp.decFeed 256).wellFormed = false
      ∧ (SourceOp.crcUpdate 255).wellFormed = true ∧ (SourceOp.decFeed 255).wellFormed = true := by decide

theorem test_wellFormed_wrbuf :
    (SourceOp.encWrbuf 32 0).wellFormed = false ∧ (SourceOp.encWrbuf 0 256).wellFormed = false
      ∧ (SourceOp.encWrbuf 31 255).wellFormed = true := by decide

theorem test_wellFormed_start :
    (SourceOp.encStart 256 0 0).wellFormed = false ∧ (SourceOp.encStart 0 256 0).wellFormed = false
      ∧ (SourceOp.encStart 0 0 256).wellFormed = false ∧ (SourceOp.encStart 255 255 255).wellFormed = true := by decide

theorem test_wellFormed_word :
    (SourceOp.word (2 ^ 32)).wellFormed = false ∧ (SourceOp.word (2 ^ 32 - 1)).wellFormed = true := by decide

/-! ### Decoding: words written bit by bit from the patterns of 30_encoding R56 and the OP column of R58 -/

theorem test_decode_nop :
    decode (0b0000#4 ++ 0b0000#4 ++ 0b00000000#8 ++ 0b00000000#8 ++ 0b00000000#8) = .valid .nop := by decide

theorem test_decode_crcLoad :
    decode (0b0001#4 ++ 0b0000#4 ++ 0b00000000#8 ++ 0b10000000#8 ++ 0b00000001#8) = .valid (.crcLoad 0x8001#16) := by
  decide

theorem test_decode_crcUpdate :
    decode (0b0010#4 ++ 0b0000#4 ++ 0b00000000#8 ++ 0b00000000#8 ++ 0b10000001#8) = .valid (.crcUpdate 0x81#8) := by
  decide

theorem test_decode_crcRead :
    decode (0b0011#4 ++ 0b0000#4 ++ 0b00000000#8 ++ 0b00000000#8 ++ 0b00000000#8) = .valid .crcRead := by decide

theorem test_decode_decReset :
    decode (0b0100#4 ++ 0b0000#4 ++ 0b00000000#8 ++ 0b00000000#8 ++ 0b00000000#8) = .valid .decReset := by decide

theorem test_decode_decFeed :
    decode (0b0101#4 ++ 0b0000#4 ++ 0b00000000#8 ++ 0b00000000#8 ++ 0b10000001#8) = .valid (.decFeed 0x81#8) := by
  decide

theorem test_decode_encWrbuf :
    decode (0b0110#4 ++ 0b0000#4 ++ 0b00000000#8 ++ 0b00010001#8 ++ 0b10000001#8)
      = .valid (.encWrbuf 17#5 0x81#8) := by decide

theorem test_decode_encStart :
    decode (0b0111#4 ++ 0b0000#4 ++ 0b10000001#8 ++ 0b01000010#8 ++ 0b00100001#8)
      = .valid (.encStart 0x81#8 0x42#8 33#8) := by decide

theorem test_decode_encNext :
    decode (0b1000#4 ++ 0b0000#4 ++ 0b00000000#8 ++ 0b00000000#8 ++ 0b00000000#8) = .valid .encNext := by decide

theorem test_decode_statusRead :
    decode (0b1001#4 ++ 0b0000#4 ++ 0b00000000#8 ++ 0b00000000#8 ++ 0b00000000#8) = .valid .statusRead := by decide

theorem test_decode_statusClr :
    decode (0b1010#4 ++ 0b0000#4 ++ 0b00000000#8 ++ 0b00000000#8 ++ 0b00000000#8) = .valid .statusClr := by decide

/-- The invalid words of 95_test_vectors 2.4, each by its reason there. -/
theorem test_decode_invalid :
    ([0x01000000#32, 0x0F000000#32, 0x71000000#32].map decode) = List.replicate 3 (.invalid .rsvNonZero)
      ∧ ([0x00000001#32, 0x30000001#32, 0x50000100#32, 0x50000155#32, 0x60002000#32, 0x80000001#32].map decode)
          = List.replicate 6 (.invalid .mustBeZeroSet)
      ∧ ([0xB0000000#32, 0xC0000000#32, 0xD0000000#32, 0xE0000000#32, 0xF0000000#32, 0xFFFFFFFF#32].map decode)
          = List.replicate 6 (.invalid .reservedOp) := by decide

/-- Each row's mask is the one that its format gives (30_encoding R56, R58). -/
theorem test_masks : opRows.all (fun r => r.mask == r.format.mask) = true := by decide

/-- The rows stand in the order of their OP values (30_encoding R58). -/
theorem test_row_ops : opRows.map (fun r => (opField r.bits).toNat) = [0, 1, 2, 3, 4, 5, 6, 7, 8, 9, 10] := by decide

/-- A row's bits decode as the table numbers them, also where only the upper bits are given. -/
theorem test_decodeTableWord :
    decodeTableWord 32 0x70810108 = some (.encStart 0x81#8 0x01#8 8#8) ∧ decodeTableWord 32 0xB0000000 = none := by
  decide

/-- The word placed by `withFetchWord` is what the next step runs. -/
theorem test_withFetchWord :
    (after (step (State.reset.withFetchWord 32 0x20000000))).map (fun s => (s.crcAcc, s.input))
      = some (0xE1F0#16, []) := by decide

/-! ### Assembler (30_encoding R69, R70) -/

theorem test_assemble_lines :
    (assemble "; a comment\nENC.WRBUF 3, 0x5A ; store\n\nDEC.FEEDS 0xAA, 85").toOption
      = some [0x6000035A#32, 0x500000AA#32, 0x50000055#32] := by decide

/-- A line feed ends a line, a carriage return before it is a blank (log entry 12). -/
theorem test_assemble_line_ends :
    (assemble "NOP\r\nCRC.READ\n").toOption = some [0x00000000#32, 0x30000000#32]
      ∧ (assemble "NOP\rCRC.READ").toOption = none := by decide

theorem test_assemble_frame :
    (assemble "ENC.FRAME 0x02, 4, [1]").toOption
      = some ([0x60000001#32, 0x70020401#32] ++ List.replicate 8 0x80000000#32) := by decide

theorem test_assemble_calc :
    (assemble "CRC.CALC 0xFFFF, [0x31]").toOption = some [0x1000FFFF#32, 0x20000031#32, 0x30000000#32] := by decide

theorem test_assemble_range :
    (assemble "CRC.LOAD 0x10000").toOption = none ∧ (assemble "ENC.WRBUF 32, 0").toOption = none
      ∧ (assemble "CRC.UPDATE 256").toOption = none := by decide

/-! ### Checksum (95_test_vectors 2.1) -/

theorem test_crcStep :
    crcStep 0xFFFF#16 0x00#8 = 0xE1F0#16 ∧ crcStep 0x1234#16 0x56#8 = 0x3C40#16 ∧ crcStep 0x0001#16 0x00#8 = 0x0100#16
      ∧ crcStep 0x0000#16 0xFF#8 = 0x1EF0#16 := by decide

theorem test_crc16 :
    crc16 0xFFFF#16 [0x05#8, 0x01#8, 0x00#8] = 0x145D#16
      ∧ crc16 0xFFFF#16 [0x31#8, 0x32#8, 0x33#8, 0x34#8] = 0x5349#16 := by decide +kernel

/-- Rows of the ENCODE table (95_test_vectors 2.2). -/
theorem test_encodeFrame :
    encodeFrame 0x05#8 0x01#8 [] = some ping
      ∧ encodeFrame 0x82#8 0x02#8 [0x05#8, 0x00#8]
          = some [0xAA#8, 0x55#8, 0x82#8, 0x02#8, 0x02#8, 0x05#8, 0x00#8, 0x0B#8, 0xA2#8]
      ∧ encodeFrame 0xFF#8 0xFF#8 [0xFF#8] = some [0xAA#8, 0x55#8, 0xFF#8, 0xFF#8, 0x01#8, 0xFF#8, 0x2D#8, 0xC1#8] := by
  decide +kernel

/-! ### ENC_BUF (20_memory R41) -/

/-- Writing the byte of an unlisted index removes the cell, and cells stay sorted. -/
theorem test_memWrite :
    memWrite (memWrite (memWrite [] 31#5 0xFF#8) 3#5 0x5A#8) 31#5 0x00#8 = [(3, 0x5A#8)]
      ∧ memWrite [(3, 0x5A#8)] 0#5 0x11#8 = [(0, 0x11#8), (3, 0x5A#8)] := by decide

theorem test_memRead : memRead [(31, 0xFF#8)] 31 = some 0xFF#8 ∧ memRead [] 0 = some 0x00#8 ∧ memRead [] 32 = none := by
  decide

/-! ### One step of each operation -/

theorem test_nop : after (exec .nop State.reset) = some { State.reset with resp := some .none } := by decide

theorem test_crcLoad : (after (exec (.crcLoad 0x0000#16) State.reset)).map (·.crcAcc) = some 0x0000#16 := by decide

theorem test_crcUpdate : (after (exec (.crcUpdate 0x00#8) State.reset)).map (·.crcAcc) = some 0xE1F0#16 := by decide

theorem test_crcRead :
    (after (exec .crcRead { State.reset with crcAcc := 0x5349#16 })).map (fun s => (s.resp, s.crcAcc))
      = some (some (.rdata 0x5349#16), 0x5349#16) := by decide

/-- The example of 42_decoder R106: STATUS 0x0305 becomes 0x0000. -/
theorem test_decReset :
    statusWord (withDec { decInit with state := .payloadByte, len := 0x05#8, buf := [0x11#8, 0x22#8, 0x33#8] }) = 0x0305#16
      ∧ (after (exec .decReset (withDec { decInit with
            state := .payloadByte, len := 0x05#8, buf := [0x11#8, 0x22#8, 0x33#8] }))).map statusWord
          = some 0x0000#16 := by decide

/-- The last payload byte of the ack (95_test_vectors 2.3). -/
theorem test_decFeed_payload :
    (after (exec (.decFeed 0x00#8) (withDec (ackPay .payloadByte [0x05#8] 0xEC37#16 0#16)))).map
        (fun s => (s.dec.crc, statusWord s)) = some (0x0BA2#16, 0x0206#16) := by decide

/-- The last byte of the ack: the frame with its payload and checksum, and a decoder that starts again. -/
theorem test_decFeed_frame :
    (after (exec (.decFeed 0xA2#8) (withDec (ackPay .checksumLow [0x05#8, 0x00#8] 0x0BA2#16 0x0B00#16)))).map
        (fun s => (s.resp, s.dec))
      = some (some (.frameOut { cmd := 0x82#8, seq := 0x02#8, len := 0x02#8, payload := [0x05#8, 0x00#8],
                                crc := 0x0BA2#16 }), decInit) := by decide

theorem test_encWrbuf_idle :
    (after (exec (.encWrbuf 3#5 0x5A#8) State.reset)).map (fun s => (memRead s.enc.buf 3, memRead s.enc.buf 4))
      = some (some 0x5A#8, some 0x00#8) := by decide

theorem test_encWrbuf_busy :
    after (exec (.encWrbuf 0#5 0x11#8) (withEnc (pingEnc .sync0 0xFFFF#16)))
      = some { withEnc (pingEnc .sync0 0xFFFF#16) with eovr := true, resp := some .none } := by decide

theorem test_encStart_idle :
    (after (exec (.encStart 0x05#8 0x01#8 0#8) State.reset)).map (fun s => (statusWord s, s.enc.crc))
      = some (0x0010#16, 0xFFFF#16) := by decide

/-- The busy check comes first (41_encoder R92). -/
theorem test_encStart_stops :
    refusal (exec (.encStart 0x01#8 0x01#8 33#8) State.reset) = some (.refuse .encOverlength)
      ∧ refusal (exec (.encStart 0x10#8 0x00#8 40#8) (withEnc (pingEnc .sync0 0xFFFF#16))) = none := by decide

/-- The length byte of the ping: the payload is skipped. -/
theorem test_encNext_len :
    (after (exec .encNext (withEnc (pingEnc .len 0xF2DB#16)))).map (fun s => (s.resp, s.enc.state, s.enc.crc))
      = some (some (.tx 0x00#8), .crcHi, 0x145D#16) := by decide

/-- The first payload byte of the ack. -/
theorem test_encNext_payload :
    (after (exec .encNext (withEnc (ackEnc .payload 0#6 0xDF86#16)))).map
        (fun s => (s.resp, s.enc.state, s.enc.idx, s.enc.crc))
      = some (some (.tx 0x05#8), .payload, 1#6, 0xEC37#16) := by decide

/-- 95_test_vectors 2.4: reading does not clear, clearing keeps ESTATE. -/
theorem test_statusRead :
    (after (exec .statusRead { withEnc (pingEnc .sync0 0xFFFF#16) with eovr := true, ill := true })).map
        (fun s => (s.resp, statusWord s)) = some (some (.rdata 0xC010#16), 0xC010#16) := by decide

theorem test_statusClr :
    (after (exec .statusClr { withEnc (pingEnc .sync0 0xFFFF#16) with eovr := true, ill := true })).map statusWord
      = some 0x0010#16 := by decide

/-- An invalid DEC.FEED is not fed (95_test_vectors 2.4). -/
theorem test_invalid_word :
    after (step (withInput [.word 0x50000155#32])) = some { State.reset with ill := true, resp := some .none } := by
  decide

/-- The one fault needs a state that no run reaches. -/
theorem test_fault_only_outside_the_buffer :
    faultOf (exec .encNext (withEnc (ackEnc .payload 32#6 0#16))) = some .encBufIndex := by decide

/-- P7 in short: a pong that comes back ends the exchange (70_reset_and_hazards R168). -/
theorem test_awaitFrame :
    (awaitFrame 0x82#8 [0xA2#8] (withDec (ackPay .checksumLow [0x05#8, 0x00#8] 0x0BA2#16 0x0B00#16))).map
        (fun u => u.2.map (·.crc)) = some (some 0x0BA2#16) := by decide

/-! ### Witnesses: the hypotheses of the statements can be met -/

theorem decInv_init : DecInv decInit := by
  refine ⟨?_, ?_, ?_, ?_, ?_, ?_, ?_⟩ <;> decide

theorem decInv_ackLow : DecInv (ackPay .checksumLow [0x05#8, 0x00#8] 0x0BA2#16 0x0B00#16) := by
  refine ⟨?_, ?_, ?_, ?_, ?_, ?_, ?_⟩ <;> decide +kernel

theorem decInv_pingLow :
    DecInv { decInit with state := .checksumLow, cmd := 0x05#8, seq := 0x01#8, crc := 0x145D#16, rxCrc := 0x1400#16 } := by
  refine ⟨?_, ?_, ?_, ?_, ?_, ?_, ?_⟩ <;> decide +kernel

theorem decInv_afterSync : DecInv { decInit with state := .commandByte } := by
  refine ⟨?_, ?_, ?_, ?_, ?_, ?_, ?_⟩ <;> decide

theorem encInv_reset : EncInv Encoder.reset := by
  refine ⟨?_, ?_, ?_, ?_, ?_, ?_, ?_, ?_, ?_⟩ <;> decide

theorem encInv_ackFirst : EncInv (ackEnc .payload 0#6 0xDF86#16) := by
  refine ⟨?_, ?_, ?_, ?_, ?_, ?_, ?_, ?_, ?_⟩ <;> decide +kernel

theorem encInv_ackLast : EncInv (ackEnc .payload 1#6 0xEC37#16) := by
  refine ⟨?_, ?_, ?_, ?_, ?_, ?_, ?_, ?_, ?_⟩ <;> decide +kernel

theorem encInv_ackHi : EncInv (ackEnc .crcHi 2#6 0x0BA2#16) := by
  refine ⟨?_, ?_, ?_, ?_, ?_, ?_, ?_, ?_, ?_⟩ <;> decide +kernel

theorem witness_ResetStepFromEveryState :
    (withInput [.reset, .word 0#32]).input = .reset :: [.word 0#32] := by decide

theorem witness_StepRunsTheDecodedInstruction :
    (withInput [.word 0x6000035A#32]).input = .word 0x6000035A#32 :: []
      ∧ decode 0x6000035A#32 = .valid (.encWrbuf 3#5 0x5A#8) := by decide

theorem witness_InvalidWordSetsIllAndNothingElse :
    (withInput [.word 0xB0000000#32]).input = .word 0xB0000000#32 :: [] ∧ illegalWord 0xB0000000#32 = true
      ∧ illegalWord 0x0F000000#32 = true ∧ illegalWord 0x60002000#32 = true ∧ illegalWord 0x50000155#32 = true := by
  decide

theorem witness_HoldsItsStateWhenNothingIsPresented : State.reset.input = [] := by decide

theorem witness_PresentedWordsRunInOrder :
    (runOps [.crcUpdate 0x00#8, .crcRead] State.reset).map (fun u => (u.1.crcAcc, u.2))
      = some (0xE1F0#16, [some .none, some (.rdata 0xE1F0#16)]) := by decide

theorem witness_ValidWordsAreThoseOfTheOpcodeMap :
    ∃ r ∈ opRows, 0x10000001#32 &&& r.mask = r.bits ∧ r.read 0x10000001#32 = .crcLoad 1#16 := by decide

theorem witness_EncodeOfDecodeIsTheWord :
    decode 0x1000FFFF#32 = .valid (.crcLoad 0xFFFF#16) ∧ decode 0x60001FFF#32 = .valid (.encWrbuf 31#5 0xFF#8) := by
  decide

theorem witness_AssemblerChecksRanges :
    0xFFFF < 0x10000 ∧ 0xFF < 256 ∧ (31 < 32 ∨ 0xFF < 0) ∧ (31 < 0 ∨ 0xFF < 256) ∧ (0xFF < 0 ∨ 0xFF < 0 ∨ 0xFF < 256) := by
  decide

/-- Every kind of response is given by some step (30_encoding R72). -/
theorem witness_ResponsesByOperation :
    (after (exec .crcRead State.reset)).map (·.resp) = some (some (.rdata 0xFFFF#16))
      ∧ (after (exec .statusRead State.reset)).map (·.resp) = some (some (.rdata 0x0000#16))
      ∧ (after (exec .encNext (withEnc (pingEnc .sync0 0xFFFF#16)))).map (·.resp) = some (some (.tx 0xAA#8))
      ∧ (after (exec (.decFeed 0xA2#8) (withDec (ackPay .checksumLow [0x05#8, 0x00#8] 0x0BA2#16 0x0B00#16)))).isSome = true
      ∧ (after (exec (.decFeed 0xA3#8) (withDec (ackPay .checksumLow [0x05#8, 0x00#8] 0x0BA2#16 0x0B00#16)))).map (·.resp)
          = some (some (.mismatch { cmd := 0x82#8, seq := 0x02#8, len := 0x02#8, rxCrc := 0x0BA3#16,
                                    calcCrc := 0x0BA2#16 })) := by decide

theorem witness_ChecksumLaws : 0 ≤ ping.length ∧ 7 ≤ ping.length ∧ ¬ 8 ≤ ping.length := by decide

theorem witness_ChecksumDetectsEveryOneByteChange : (0x04#8 : Byte) ≠ 0x05#8 := by decide

theorem witness_FeedWhileSeekingSync :
    State.reset.dec.state = .seekSync0 ∧ (withDec { decInit with state := .seekSync1 }).dec.state = .seekSync1 := by decide

theorem witness_FeedCommandAndSequenceBytes :
    (withDec { decInit with state := .commandByte }).dec.state = .commandByte
      ∧ (withDec (ackDec .sequenceByte 0x503A#16)).dec.state = .sequenceByte := by decide

/-- Both ends of the three ranges of the length byte: 0, then 1 and 32, then 33 and 255. -/
theorem witness_FeedLengthByteBoundsTheFrame :
    (withDec (ackDec .lengthByte 0x40B7#16)).dec.state = .lengthByte
      ∧ ([0#8, 1#8, 32#8, 33#8, 255#8].map (fun b =>
            (after (exec (.decFeed b) (withDec (ackDec .lengthByte 0x40B7#16)))).map (·.dec.state)))
          = [some .checksumHigh, some .payloadByte, some .payloadByte, some .seekSync0, some .seekSync0] := by decide

/-- One byte that does not fill the buffer and one that does. -/
theorem witness_FeedPayloadByteFillsTheBuffer :
    (withDec (ackPay .payloadByte [] 0xDF86#16 0#16)).dec.state = .payloadByte
      ∧ ¬ (withDec (ackPay .payloadByte [] 0xDF86#16 0#16)).dec.buf.length + 1 = 2
      ∧ (withDec (ackPay .payloadByte [0x05#8] 0xEC37#16 0#16)).dec.buf.length + 1 = 2 := by decide

theorem witness_FeedChecksumHighByte :
    (withDec (ackPay .checksumHigh [0x05#8, 0x00#8] 0x0BA2#16 0#16)).dec.state = .checksumHigh := by decide

/-- A last byte that matches and one that does not. -/
theorem witness_FeedChecksumLowByteEndsTheFrame :
    (withDec (ackPay .checksumLow [0x05#8, 0x00#8] 0x0BA2#16 0x0B00#16)).dec.state = .checksumLow
      ∧ (0x0B00#16 : Half) ||| (0xA2#8 : Byte).zeroExtend 16 = 0x0BA2#16
      ∧ ¬ (0x0B00#16 : Half) ||| (0xA3#8 : Byte).zeroExtend 16 = 0x0BA2#16 := by decide

theorem witness_FrameOutIsAWellFormedFrame :
    DecInv (ackPay .checksumLow [0x05#8, 0x00#8] 0x0BA2#16 0x0B00#16)
      ∧ (after (exec (.decFeed 0xA2#8) (withDec (ackPay .checksumLow [0x05#8, 0x00#8] 0x0BA2#16 0x0B00#16)))).map (·.resp)
          = some (some (.frameOut (frameOf 0x82#8 0x02#8 [0x05#8, 0x00#8]))) :=
  ⟨decInv_ackLow, by decide +kernel⟩

/-- The clause for a frame of length 0: the ping. -/
theorem witness_FrameOutIsAWellFormedFrame_empty :
    DecInv { decInit with state := .checksumLow, cmd := 0x05#8, seq := 0x01#8, crc := 0x145D#16, rxCrc := 0x1400#16 }
      ∧ (after (exec (.decFeed 0x5D#8) (withDec { decInit with
            state := .checksumLow, cmd := 0x05#8, seq := 0x01#8, crc := 0x145D#16, rxCrc := 0x1400#16 }))).map (·.resp)
          = some (some (.frameOut (frameOf 0x05#8 0x01#8 []))) :=
  ⟨decInv_pingLow, by decide +kernel⟩

theorem witness_MismatchReportsDifferingChecksums :
    (after (exec (.decFeed 0xA2#8) (withDec (ackPay .checksumLow [0x04#8, 0x00#8] 0x3893#16 0x0B00#16)))).map (·.resp)
      = some (some (.mismatch { cmd := 0x82#8, seq := 0x02#8, len := 0x02#8, rxCrc := 0x0BA2#16,
                                calcCrc := 0x3893#16 })) := by decide

/-- The shortest and the longest payload (30_encoding R63). -/
theorem witness_RoundTripThroughTheDecoder :
    encodeFrame 0x05#8 0x01#8 [] = some ping ∧ (encodeFrame 0x10#8 0x20#8 (List.replicate 32 0x00#8)).isSome = true
      ∧ DecInv State.reset.dec ∧ State.reset.dec.state = .seekSync0 :=
  ⟨by decide +kernel, by decide +kernel, decInv_init, by decide +kernel⟩

theorem witness_FrameOutOnlyAfterItsEncoding :
    DecInv State.reset.dec ∧ State.reset.dec.state = .seekSync0
      ∧ (runOps (decFeeds ping) State.reset).map (fun u => u.2.getLast?)
          = some (some (some (.frameOut (frameOf 0x05#8 0x01#8 [])))) :=
  ⟨decInv_init, by decide +kernel, by decide +kernel⟩

/-- The state after the dropped header is that of reset, and a ping after it does come out. -/
theorem witness_LengthThirtyThreeNeverYieldsAFrame :
    DecInv State.reset.dec ∧ State.reset.dec.state = .seekSync0
      ∧ (runOps (decFeeds [0xAA#8, 0x55#8, 0x01#8, 0x02#8, 0x21#8]) State.reset).map (·.1.dec) = some decInit
      ∧ (runOps (decFeeds ping) State.reset).map (fun u => u.2.getLast?)
          = some (some (some (.frameOut (frameOf 0x05#8 0x01#8 [])))) :=
  ⟨decInv_init, by decide +kernel, by decide +kernel, by decide +kernel⟩

theorem witness_SingleBitErrorGivesMismatch :
    (encodeFrame 0x82#8 0x02#8 [0x05#8, 0x00#8]).isSome = true ∧ 1 < [0x05#8, 0x00#8].length
      ∧ flipBit [0x05#8, 0x00#8] 0 0 = [0x04#8, 0x00#8] ∧ flipBit [0x05#8, 0x00#8] 0 7 = [0x85#8, 0x00#8]
      ∧ DecInv State.reset.dec ∧ State.reset.dec.state = .seekSync0
      ∧ encodeFrame 0x05#8 0x01#8 [] = some ping :=
  ⟨by decide +kernel, by decide +kernel, by decide +kernel, by decide +kernel, decInv_init, by decide +kernel, by decide +kernel⟩

theorem witness_ZeroLengthFrameSkipsThePayload : DecInv State.reset.dec ∧ State.reset.dec.state = .seekSync0 :=
  ⟨decInv_init, by decide⟩

/-- The noise of 42_decoder R124, and a frame that holds no second sync pair. -/
theorem witness_ResynchronisationAfterNoise :
    encodeFrame 0x05#8 0x01#8 [] = some ping ∧ DecInv State.reset.dec ∧ State.reset.dec.state = .seekSync0
      ∧ noSyncPair [0x00#8, 0xAA#8, 0x13#8] = true ∧ [0x00#8, 0xAA#8, 0x13#8].getLast? ≠ some 0xAA#8
      ∧ noSyncPair ([] : List Byte) = true ∧ ([] : List Byte).getLast? ≠ some 0xAA#8
      ∧ noSyncPair (ping.drop 2) = true :=
  ⟨by decide +kernel, decInv_init, by decide +kernel, by decide +kernel, by decide +kernel, by decide +kernel, by decide +kernel, by decide +kernel⟩

theorem witness_FalseSyncConsumesAtMost37Bytes :
    DecInv { decInit with state := .commandByte }
      ∧ (withDec { decInit with state := .commandByte }).dec.state = .commandByte
      ∧ (List.replicate 37 0x20#8 : List Byte).length = 37 :=
  ⟨decInv_afterSync, by decide, by decide⟩

theorem witness_EncBufReadsBackWhatWasWritten :
    Memory.wf [(0, 0x05#8), (31, 0xFF#8)] = true ∧ (0 : Nat) ≠ (31#5).toNat ∧ 32 ≤ 32 ∧ Memory.wf [] = true := by decide

/-- Idle and busy. -/
theorem witness_EncWrbufWritesWhileIdle :
    State.reset.enc.buf.wf = true ∧ State.reset.enc.state = .idle
      ∧ (withEnc (ackEnc .crcLo 2#6 0x0BA2#16)).enc.buf.wf = true
      ∧ (withEnc (ackEnc .crcLo 2#6 0x0BA2#16)).enc.state ≠ .idle := by decide

/-- Busy, idle with 33, idle with 32 and with 0. -/
theorem witness_EncStartLatchesTheFrame :
    (withEnc (pingEnc .sync0 0xFFFF#16)).enc.state ≠ .idle ∧ State.reset.enc.state = .idle
      ∧ 32 < (33#8).toNat ∧ (32#8).toNat ≤ 32 ∧ (0#8).toNat ≤ 32 := by decide

theorem witness_EncNextIdleAndSyncBytes :
    State.reset.enc.state = .idle ∧ (withEnc (pingEnc .sync0 0xFFFF#16)).enc.state = .sync0
      ∧ (withEnc (pingEnc .sync1 0xFFFF#16)).enc.state = .sync1 := by decide

theorem witness_EncNextHeaderBytes :
    (withEnc (pingEnc .cmd 0xFFFF#16)).enc.state = .cmd ∧ (withEnc (pingEnc .seq 0xB155#16)).enc.state = .seq
      ∧ (withEnc (pingEnc .len 0xF2DB#16)).enc.state = .len := by decide

/-- The first and the last payload byte of the ack. -/
theorem witness_EncNextPayloadByte :
    EncInv (ackEnc .payload 0#6 0xDF86#16) ∧ EncInv (ackEnc .payload 1#6 0xEC37#16)
      ∧ (withEnc (ackEnc .payload 0#6 0xDF86#16)).enc.state = .payload :=
  ⟨encInv_ackFirst, encInv_ackLast, by decide⟩

theorem witness_EncNextChecksumBytes :
    (withEnc (pingEnc .crcHi 0x145D#16)).enc.state = .crcHi ∧ (withEnc (pingEnc .crcLo 0x145D#16)).enc.state = .crcLo := by
  decide

theorem witness_EncNextCompletesUnderTheInvariant :
    EncInv State.reset.enc ∧ State.reset.enc.state = .idle
      ∧ EncInv (ackEnc .crcHi 2#6 0x0BA2#16) ∧ (ackEnc .crcHi 2#6 0x0BA2#16).state ≠ .idle :=
  ⟨encInv_reset, by decide, encInv_ackHi, by decide⟩

theorem witness_EncodeGivesExactlyTheWireFrames :
    (List.replicate 32 0x00#8 : List Byte).length ≤ 32 ∧ 32 < (List.replicate 33 0x00#8 : List Byte).length
      ∧ encodeFrame 0x05#8 0x01#8 [] = some ping ∧ isWireFrame ping = true := by decide +kernel

/-- A ping with a CRC operation, an early ENC.WRBUF and a DEC.FEED between its ENC.NEXT steps. -/
theorem witness_SerializerEmitsTheEncodedFrame :
    State.reset.enc.state = .idle
      ∧ encodeFrame 0x05#8 0x01#8 (bufTake State.reset.enc.buf (0#8).toNat) = some ping ∧ (0#8).toNat ≤ 32
      ∧ List.count .encNext ([.crcUpdate 0x01#8, .encNext, .encWrbuf 0#5 0x11#8, .encNext, .encNext, .decFeed 0xAA#8,
          .encNext, .encNext, .encNext] : List Instr) = 6 + (0#8).toNat
      ∧ (withEnc (pingEnc .crcLo 0x145D#16)).enc.state ≠ .idle ∧ Instr.crcRead ≠ .encNext := by decide +kernel

theorem witness_EncFrameTransmitsTheFrame :
    State.reset.enc.state = .idle ∧ State.reset.enc.buf.wf = true
      ∧ (encodeFrame 0x02#8 0x04#8 [0x01#8]).isSome = true ∧ (encFrame 0x02#8 0x04#8 [0x01#8]).isSome = true := by decide

theorem witness_NopChangesNothing : opField 0x00000001#32 = 0#4 ∧ 0x00000001#32 ≠ 0x00000000#32 := by decide

/-- The fullest buffer (95_test_vectors 2.3: STATUS = 0x2006). -/
theorem witness_StatusReadReturnsTheStatusWord :
    (withDec { decInit with state := .checksumHigh, len := 32#8, buf := List.replicate 32 0x00#8 }).dec.buf.length ≤ 32
      ∧ statusWord (withDec { decInit with state := .checksumHigh, len := 32#8, buf := List.replicate 32 0x00#8 })
          = 0x2006#16 := by decide

/-- A step that sets each bit, and steps that clear them. -/
theorem witness_StickyBitsChangeOnlyAsStated :
    (after (step { withEnc (pingEnc .sync0 0xFFFF#16) with input := [.word 0x70100028#32] })).map (·.eovr) = some true
      ∧ (after (step { withEnc (pingEnc .sync0 0xFFFF#16) with input := [.word 0x60000011#32] })).map (·.eovr) = some true
      ∧ (after (step (withInput [.word 0xB0000000#32]))).map (·.ill) = some true
      ∧ (after (step { withInput [.word 0xA0000000#32] with eovr := true, ill := true })).map (fun s => (s.eovr, s.ill))
          = some (false, false)
      ∧ (after (step { withInput [.reset] with eovr := true, ill := true })).map (fun s => (s.eovr, s.ill))
          = some (false, false) := by decide

theorem witness_UnitsAreIndependent : (decode 0xB0000000#32).toOption = none := by decide

theorem witness_EveryStepKeepsTheInvariant :
    BlockInv (withEnc (ackEnc .payload 1#6 0xEC37#16))
      ∧ (after (step { withEnc (ackEnc .payload 1#6 0xEC37#16) with input := [.word 0x80000000#32] })).map (·.enc.state)
          = some .crcHi :=
  ⟨⟨decInv_init, encInv_ackLast, by decide⟩, by decide⟩

/-- A decoder with its buffer full. -/
def fullDec : Decoder :=
  { decInit with
    state := .checksumHigh, len := 32#8, buf := List.replicate 32 0x00#8
    crc := frameCrc 0x00#8 0x00#8 32#8 (List.replicate 32 0x00#8) }

/-- An encoder that has sent 32 payload bytes. -/
def fullEnc : Encoder :=
  { Encoder.reset with state := .crcHi, len := 32#8, idx := 32#6, crc := frameCrc 0x00#8 0x00#8 32#8 (bufTake [] 32) }

theorem decInv_full : DecInv fullDec :=
  ⟨by decide +kernel, by decide +kernel, by decide +kernel, by decide +kernel, by decide +kernel, fun _ => ⟨by decide, by decide, by decide +kernel⟩, by decide +kernel⟩

theorem encInv_full : EncInv fullEnc :=
  ⟨by decide +kernel, by decide +kernel, by decide +kernel, by decide +kernel, by decide +kernel, by decide +kernel, by decide +kernel, by decide +kernel, fun _ => by decide +kernel⟩

/-- Each bound is reached. -/
theorem witness_InvariantBoundsBuffers :
    BlockInv { State.reset with dec := fullDec, enc := fullEnc }
      ∧ fullDec.buf.length = 32 ∧ fullEnc.idx.toNat = 32 ∧ fullEnc.state ≠ .idle ∧ fullEnc.len.toNat = 32 :=
  ⟨⟨decInv_full, encInv_full, by decide⟩, by decide, by decide, by decide, by decide⟩

theorem witness_OnlyOverlengthStartIsRefused :
    refusal (step (withInput [.word 0x70010121#32])) = some (.refuse .encOverlength)
      ∧ State.reset.enc.state = .idle ∧ encode (.encStart 0x01#8 0x01#8 33#8) = 0x70010121#32 ∧ 32 < (33#8).toNat := by
  decide

theorem witness_NoStepFaultsUnderTheInvariant : BlockInv (withInput [.word 0x80000000#32]) :=
  ⟨decInv_init, encInv_reset, by decide⟩

/-- Two states whose hidden registers differ in every one of them. -/
theorem witness_HiddenRegistersNeverShow :
    let s : State := { withInput [.word 0x500000AA#32] with
      dec := { decInit with cmd := 1#8, seq := 2#8, len := 3#8, crc := 4#16, rxCrc := 5#16 }
      enc := { Encoder.reset with cmd := 6#8, seq := 7#8, len := 8#8, idx := 9#6, crc := 10#16 } }
    let t := withInput [.word 0x500000AA#32]
    s.dec.state = .seekSync0 ∧ t.dec.state = .seekSync0 ∧ s.dec.buf = [] ∧ t.dec.buf = []
      ∧ s.enc.state = .idle ∧ t.enc.state = .idle ∧ s.enc.buf = t.enc.buf
      ∧ s.crcAcc = t.crcAcc ∧ s.eovr = t.eovr ∧ s.ill = t.ill ∧ s.resp = t.resp ∧ s.input = t.input ∧ s ≠ t := by decide

theorem witness_HostResyncReachesAKnownState :
    BlockInv { withEnc (ackEnc .crcHi 2#6 0x0BA2#16) with eovr := true, ill := true } :=
  ⟨decInv_init, encInv_ackHi, by decide⟩

end Sys2Proof.Tests
end

section
/-! PROOFS. What one step does with a word that the host presents (00_scope R18). -/

namespace Sys2Proof.Machine

/-- With a word presented, the step is the command step on that word, the word taken from the stream. -/
theorem step_of_input_word {s : State} {w : Word} {rest : List PortInput} (hin : s.input = .word w :: rest) :
    step s = wordStep w { s with input := rest } := by
  simp only [step, portStep, hin]

/-- The command step on a valid word runs the operation it decodes to. -/
theorem wordStep_of_decode_valid {w : Word} {i : Instr} (hdec : decode w = .valid i) (s : State) :
    wordStep w s = exec i s := by
  simp only [wordStep, hdec]

/-- Settles O3: the port takes the word, and its command step is `exec` of the decoded operation. -/
theorem stepRunsTheDecodedInstruction : Obligations.StepRunsTheDecodedInstruction := by
  intro s w rest i hin hdec
  calc step s = wordStep w { s with input := rest } := step_of_input_word hin
    _ = exec i { s with input := rest } := wordStep_of_decode_valid hdec _

end Sys2Proof.Machine
end

section
/-! PROOFS. A run unfolds step by step, and what each of its steps does with what the host presents. -/

namespace Sys2Proof.Machine

theorem run_succ_of_next {s u : State} (h : step s = .next u) (n : Nat) : core.run (n + 1) s = core.run n u := by
  simp only [Host.Core.run, show core.step s = .next u from h]

theorem run_succ_of_fault {s : State} {f : Fault} (h : step s = .fault f) (n : Nat) :
    core.run (n + 1) s = .fault f := by
  simp only [Host.Core.run, show core.step s = .fault f from h]

theorem run_succ_of_refused {s : State} {r : Refusal} (h : step s = .refused r) (n : Nat) :
    core.run (n + 1) s = .refused r := by
  simp only [Host.Core.run, show core.step s = .refused r from h]

/-- A step that gives a next state holds, resets, runs the operation of a valid word, or marks an invalid word
(00_scope R18, 70_reset_and_hazards R160). -/
theorem step_cases {s t : State} (h : step s = .next t) :
    (s.input = [] ∧ t = holdStep s)
      ∨ (∃ rest, s.input = .reset :: rest ∧ t = resetStep { s with input := rest })
      ∨ (∃ w rest i, s.input = .word w :: rest ∧ decode w = .valid i ∧ exec i { s with input := rest } = .next t)
      ∨ ∃ w rest why, s.input = .word w :: rest ∧ decode w = .invalid why ∧ t = invalidWord { s with input := rest } := by
  unfold step portStep at h
  split at h
  · next hin => cases h; exact .inl ⟨hin, rfl⟩
  · next rest hin => cases h; exact .inr (.inl ⟨rest, hin, rfl⟩)
  · next w rest hin =>
    unfold wordStep at h
    split at h
    · next i hdec => exact .inr (.inr (.inl ⟨w, rest, i, hin, hdec, h⟩))
    · next why hdec => cases h; exact .inr (.inr (.inr ⟨w, rest, why, hin, hdec, rfl⟩))

end Sys2Proof.Machine
end

section
/-! PROOFS. Decoding the word of an operation gives the operation back (30_encoding R55 to R59). -/

namespace Sys2Proof

open Machine

@[simp] theorem imm16Field_packH (op : BitVec 4) (v : Half) : imm16Field (packWord op (packH v)) = v := by
  apply BitVec.eq_of_toNat_eq
  rw [imm16Field, toNat_field, toNat_packWord, toNat_packH]
  omega

@[simp] theorem b8Field_packB (op : BitVec 4) (b : Byte) : b8Field (packWord op (packB b)) = b := by
  apply BitVec.eq_of_toNat_eq
  rw [b8Field, toNat_field, toNat_packWord, toNat_packB]
  omega

@[simp] theorem idxField_packIB (op : BitVec 4) (k : BitVec 5) (b : Byte) :
    idxField (packWord op (packIB k b)) = k := by
  apply BitVec.eq_of_toNat_eq
  rw [idxField, toNat_field, toNat_packWord, toNat_packIB]
  omega

@[simp] theorem b8Field_packIB (op : BitVec 4) (k : BitVec 5) (b : Byte) :
    b8Field (packWord op (packIB k b)) = b := by
  apply BitVec.eq_of_toNat_eq
  rw [b8Field, toNat_field, toNat_packWord, toNat_packIB]
  omega

@[simp] theorem cmdField_packCSL (op : BitVec 4) (c q n : Byte) :
    cmdField (packWord op (packCSL c q n)) = c := by
  apply BitVec.eq_of_toNat_eq
  rw [cmdField, toNat_field, toNat_packWord, toNat_packCSL]
  omega

@[simp] theorem seqField_packCSL (op : BitVec 4) (c q n : Byte) :
    seqField (packWord op (packCSL c q n)) = q := by
  apply BitVec.eq_of_toNat_eq
  rw [seqField, toNat_field, toNat_packWord, toNat_packCSL]
  omega

@[simp] theorem lenField_packCSL (op : BitVec 4) (c q n : Byte) :
    lenField (packWord op (packCSL c q n)) = n := by
  apply BitVec.eq_of_toNat_eq
  rw [lenField, toNat_field, toNat_packWord, toNat_packCSL]
  omega

/-- Decoding the word of an operation gives the operation back: of R59's comparisons only the one with the
operation's own row succeeds, as the value of the word tells, and each field reads the operand packed there. -/
theorem decode_encode (i : Instr) : decode (encode i) = .valid i := by
  cases i
  case crcLoad v =>
    have hval : (encode (.crcLoad v)).toNat = 0x1 * 2 ^ 28 + v.toNat := by
      rw [encode, toNat_packWord, toNat_packH]; rfl
    simp (disch := omega) only [decode_eq, if_neg, if_pos]
    rw [encode, imm16Field_packH]
  case crcUpdate b =>
    have hval : (encode (.crcUpdate b)).toNat = 0x2 * 2 ^ 28 + b.toNat := by
      rw [encode, toNat_packWord, toNat_packB]; rfl
    simp (disch := omega) only [decode_eq, if_neg, if_pos]
    rw [encode, b8Field_packB]
  case decFeed b =>
    have hval : (encode (.decFeed b)).toNat = 0x5 * 2 ^ 28 + b.toNat := by
      rw [encode, toNat_packWord, toNat_packB]; rfl
    simp (disch := omega) only [decode_eq, if_neg, if_pos]
    rw [encode, b8Field_packB]
  case encWrbuf k b =>
    have hval : (encode (.encWrbuf k b)).toNat = 0x6 * 2 ^ 28 + (k.toNat * 2 ^ 8 + b.toNat) := by
      rw [encode, toNat_packWord, toNat_packIB]; rfl
    simp (disch := omega) only [decode_eq, if_neg, if_pos]
    rw [encode, idxField_packIB, b8Field_packIB]
  case encStart c q n =>
    have hval : (encode (.encStart c q n)).toNat = 0x7 * 2 ^ 28 + (c.toNat * 2 ^ 16 + q.toNat * 2 ^ 8 + n.toNat) := by
      rw [encode, toNat_packWord, toNat_packCSL]; rfl
    simp (disch := omega) only [decode_eq, if_neg, if_pos]
    rw [encode, cmdField_packCSL, seqField_packCSL, lenField_packCSL]
  all_goals decide

end Sys2Proof
end

section
/-! PROOFS. A list of words presented one a step runs its operations in order (10_state R22). -/

namespace Sys2Proof.Machine

/-- A run of operations starts with a next state of the first and is the run of the others from there. -/
theorem runOps_cons_eq_some {i : Instr} {ops : List Instr} {s t : State} {rs : List (Option Resp)}
    (h : runOps (i :: ops) s = some (t, rs)) :
    ∃ u rs', exec i s = .next u ∧ runOps ops u = some (t, rs') := by
  unfold runOps at h
  cases hexec : exec i s <;> rw [hexec] at h
  case next u =>
    obtain ⟨⟨v, rs'⟩, hrun, heq⟩ := Option.map_eq_some_iff.1 h
    cases heq
    exact ⟨u, rs', rfl, hrun⟩
  all_goals cases h

/-- With the word of an operation presented, the step is that operation, the word taken from the stream. -/
theorem step_of_encoded_word {i : Instr} {s u : State} (h : exec i s = .next u) (rest : List PortInput) :
    step { s with input := .word (encode i) :: rest } = .next { u with input := rest } := by
  rw [stepRunsTheDecodedInstruction _ (encode i) rest i rfl (decode_encode i)]
  have hhost := exec_host_fields i s rest s.resp
  rwa [h] at hhost

/-- Settles O6, by induction on the operations: each takes one step, on its own word. -/
theorem presentedWordsRunInOrder : Obligations.PresentedWordsRunInOrder := by
  intro ops
  induction ops with
  | nil =>
    intro s t rs rest hrun
    cases hrun
    rfl
  | cons i ops ih =>
    intro s t rs rest hrun
    obtain ⟨u, rs', hexec, hrest⟩ := runOps_cons_eq_some hrun
    calc core.run (ops.length + 1) { s with input := .word (encode i) :: (ops.map (.word <| encode ·) ++ rest) }
      _ = core.run ops.length { u with input := ops.map (.word <| encode ·) ++ rest } :=
        run_succ_of_next (step_of_encoded_word hexec _) _
      _ = .next { t with input := rest } := ih u t rs' rest hrest

end Sys2Proof.Machine
end

section
/-! PROOFS. What the hidden registers hold never shows (10_state R28 item 6, R35): a state is compared through its live
part, in which each register that the unit's state will write before reading it is put at its reset value. -/

namespace Sys2Proof.Machine

/-- The decoder with the registers that its state writes before it reads them put at their reset values
(42_decoder R108 to R115). DEC_BUF is always live: its length shows in STATUS. -/
def liveDec (d : Decoder) : Decoder :=
  match d.state with
  | .seekSync0 | .seekSync1 => { decInit with state := d.state, buf := d.buf }
  | .commandByte => { decInit with state := d.state, buf := d.buf, crc := d.crc }
  | .sequenceByte => { decInit with state := d.state, buf := d.buf, crc := d.crc, cmd := d.cmd }
  | .lengthByte => { d with len := decInit.len, rxCrc := decInit.rxCrc }
  | .payloadByte | .checksumHigh => { d with rxCrc := decInit.rxCrc }
  | .checksumLow => d

/-- The encoder with the registers that an idle encoder writes before it reads them put at their reset values
(41_encoder R92). -/
def liveEnc (e : Encoder) : Encoder := if e.state = .idle then { Encoder.reset with buf := e.buf } else e

/-- The live part of a state. -/
def liveState (s : State) : State := { s with dec := liveDec s.dec, enc := liveEnc s.enc }

/-- An outcome, its next state seen by its live part. -/
def liveOutcome : Host.Outcome State Fault Refusal → Host.Outcome State Fault Refusal
  | .next s => .next (liveState s)
  | .fault f => .fault f
  | .refused r => .refused r

@[simp] theorem liveOutcome_next (s : State) : liveOutcome (.next s) = .next (liveState s) := rfl

/-! ### The decoder -/

@[simp] theorem liveDec_state (d : Decoder) : (liveDec d).state = d.state := by
  unfold liveDec
  split <;> rfl

@[simp] theorem liveDec_buf (d : Decoder) : (liveDec d).buf = d.buf := by
  unfold liveDec
  split <;> rfl

@[simp] theorem liveDec_idem (d : Decoder) : liveDec (liveDec d) = liveDec d := by
  cases h : d.state <;> simp [liveDec, h]

/-- A decoder still seeking the first sync byte, with nothing buffered, is live as after DecInit. -/
theorem liveDec_of_seekSync0 {d : Decoder} (hs : d.state = .seekSync0) (hb : d.buf = []) : liveDec d = decInit := by
  simp [liveDec, hs, hb, decInit]

/-- What a byte does to the live part, and the response, are functions of the live part: each state's rule reads live
registers only, and leaves live only what it writes or what was live (42_decoder R108 to R115). -/
theorem feedByte_liveDec (b : Byte) (d : Decoder) :
    liveDec (feedByte b (liveDec d)).1 = liveDec (feedByte b d).1 ∧ (feedByte b (liveDec d)).2 = (feedByte b d).2 := by
  unfold feedByte
  rw [liveDec_state]
  cases h : d.state <;> simp only
  case seekSync0 => unfold feedSeekSync0; split <;> simp [liveDec, h]
  case seekSync1 => unfold feedSeekSync1; split <;> simp [liveDec, h]
  case commandByte => simp [feedCommandByte, liveDec, h]
  case sequenceByte => simp [feedSequenceByte, liveDec, h]
  case lengthByte =>
    unfold feedLengthByte
    split
    · simp
    · split <;> simp [liveDec, h]
  case payloadByte =>
    simp only [feedPayloadByte]
    by_cases hl : (d.buf ++ [b]).length = d.len.toNat <;> simp_all [liveDec]
  case checksumHigh => simp [feedChecksumHigh, liveDec, h]
  case checksumLow => simp [liveDec, h]

/-! ### The encoder -/

@[simp] theorem liveEnc_state (e : Encoder) : (liveEnc e).state = e.state := by
  unfold liveEnc
  split
  · next h => exact h.symm
  · rfl

@[simp] theorem liveEnc_buf (e : Encoder) : (liveEnc e).buf = e.buf := by
  unfold liveEnc
  split <;> rfl

theorem liveEnc_of_idle {e : Encoder} (h : e.state = .idle) : liveEnc e = { Encoder.reset with buf := e.buf } :=
  if_pos h

/-- While busy every register of the encoder is live. -/
theorem liveEnc_of_busy {e : Encoder} (h : e.state ≠ .idle) : liveEnc e = e := if_neg h

@[simp] theorem liveEnc_idem (e : Encoder) : liveEnc (liveEnc e) = liveEnc e := by
  by_cases h : e.state = .idle
  · rw [liveEnc_of_idle (by simpa using h), liveEnc_buf, liveEnc_of_idle h]
  · rw [liveEnc_of_busy (by simpa using h)]

/-- A start overwrites every register that an idle encoder hides (41_encoder R92). -/
@[simp] theorem startFrame_liveEnc (c q n : Byte) (e : Encoder) : startFrame c q n (liveEnc e) = startFrame c q n e := by
  simp [startFrame]

@[simp] theorem encBusy_liveEnc (e : Encoder) : encBusy (liveEnc e) = encBusy e := by
  simp [encBusy]

/-- A write of ENC_BUF commutes with seeing the live part (41_encoder R91). -/
theorem liveEnc_setBuf (m : Memory) (e : Encoder) :
    liveEnc { liveEnc e with buf := m } = liveEnc { e with buf := m } := by
  by_cases h : e.state = .idle
  · simp [liveEnc, h, Encoder.reset]
  · rw [liveEnc_of_busy h]

/-! ### The operations -/

@[simp] theorem liveState_respond (r : Resp) (s : State) : liveState (respond r s) = respond r (liveState s) := rfl
@[simp] theorem liveState_setEovr (s : State) : liveState (setEovr s) = setEovr (liveState s) := rfl
@[simp] theorem liveState_setIll (s : State) : liveState (setIll s) = setIll (liveState s) := rfl
@[simp] theorem liveState_clearSticky (s : State) : liveState (clearSticky s) = clearSticky (liveState s) := rfl
@[simp] theorem liveState_resp (s : State) : (liveState s).resp = s.resp := rfl
@[simp] theorem liveState_enc (s : State) : (liveState s).enc = liveEnc s.enc := rfl

@[simp] theorem liveState_idem (s : State) : liveState (liveState s) = liveState s := by
  simp [liveState]

/-- STATUS shows live registers only (10_state R33). -/
@[simp] theorem statusWord_liveState (s : State) : statusWord (liveState s) = statusWord s := by
  simp [statusWord, liveState, dcnt]

/-- ENC.WRBUF sees the live part only: busy is seen in ENC_STATE, and ENC_BUF is live (41_encoder R91). -/
theorem execEncWrbuf_liveState (k : BitVec 5) (b : Byte) (s : State) :
    liveOutcome (execEncWrbuf k b (liveState s)) = liveOutcome (execEncWrbuf k b s) := by
  have hbuf := liveEnc_setBuf (memWrite s.enc.buf k b) s.enc
  cases hb : encBusy s.enc
  · simp only [execEncWrbuf, liveState_enc, encBusy_liveEnc, liveEnc_buf, hb, Bool.false_eq_true, if_false,
      liveOutcome_next, liveState_respond]
    simp only [liveState, hbuf, liveDec_idem]
  · simp [execEncWrbuf, hb]

/-- ENC.START sees the live part only (41_encoder R92). -/
theorem execEncStart_liveState (c q n : Byte) (s : State) :
    liveOutcome (execEncStart c q n (liveState s)) = liveOutcome (execEncStart c q n s) := by
  cases hb : encBusy s.enc
  · by_cases hn : n.toNat > Config.maxLen
    · simp [execEncStart, hb, hn]
    · simp [execEncStart, hb, hn, liveState]
  · simp [execEncStart, hb]

/-- ENC.NEXT sees the live part only: an idle encoder answers None and stays, a busy one is all live (41_encoder R93,
R94). -/
theorem execEncNext_liveState (s : State) :
    liveOutcome (execEncNext (liveState s)) = liveOutcome (execEncNext s) := by
  by_cases hs : s.enc.state = .idle
  · simp [execEncNext, encAdvance, hs, liveState]
  · simp only [execEncNext, liveState, liveEnc_of_busy hs]
    cases encAdvance s.enc with
    | none => rfl
    | some p => simp [liveState]

/-- The live part after an operation, its response and its way of ending depend on the live part before it only. -/
theorem exec_liveState (i : Instr) (s : State) : liveOutcome (exec i (liveState s)) = liveOutcome (exec i s) := by
  cases i with
  | encWrbuf k b => exact execEncWrbuf_liveState k b s
  | encStart c q n => exact execEncStart_liveState c q n s
  | encNext => exact execEncNext_liveState s
  | decFeed b =>
    obtain ⟨hdec, hresp⟩ := feedByte_liveDec b s.dec
    simp [exec, execDecFeed, liveState, hdec, hresp]
  | crcLoad v => simp [exec, execCrcLoad, liveState]
  | crcUpdate b => simp [exec, execCrcUpdate, liveState]
  | crcRead => simp [exec, execCrcRead, liveState]
  | decReset => simp [exec, execDecReset, liveState]
  | statusRead => simp [exec, execStatusRead]
  | statusClr => simp [exec, execStatusClr]
  | nop => simp [exec, execNop]

/-! ### The step and the run -/

theorem wordStep_liveState (w : Word) (s : State) :
    liveOutcome (wordStep w (liveState s)) = liveOutcome (wordStep w s) := by
  unfold wordStep
  cases decode w with
  | valid i => exact exec_liveState i s
  | invalid => simp [invalidWord]

/-- One step of the live part is, in its live part, one step of the state. -/
theorem step_liveState (s : State) : liveOutcome (step (liveState s)) = liveOutcome (step s) := by
  unfold step portStep
  rw [show (liveState s).input = s.input from rfl]
  split
  · simp [holdStep, liveState]
  · rfl
  · next w rest _ => exact wordStep_liveState w { s with input := rest }

/-- Outcomes alike in their live parts are two next states alike, or the same end of the run. -/
theorem liveOutcome_eq_cases {o p : Host.Outcome State Fault Refusal} (h : liveOutcome o = liveOutcome p) :
    (∃ u v, o = .next u ∧ p = .next v ∧ liveState u = liveState v)
      ∨ (∃ f, o = .fault f ∧ p = .fault f) ∨ ∃ r, o = .refused r ∧ p = .refused r := by
  cases o <;> cases p <;> simp only [liveOutcome, reduceCtorEq] at h
  case next.next u v => exact .inl ⟨u, v, rfl, rfl, Host.Outcome.next.inj h⟩
  case fault.fault => -- the model has one fault
    exact .inr (.inl ⟨.encBufIndex, rfl, rfl⟩)
  case refused.refused r _ => exact .inr (.inr ⟨r, rfl, h ▸ rfl⟩)

/-- A run sees the live part only: two states alike in their live parts stay alike. -/
theorem run_congr_liveState (n : Nat) {s t : State} (h : liveState s = liveState t) :
    liveOutcome (core.run n s) = liveOutcome (core.run n t) := by
  induction n generalizing s t with
  | zero => exact congrArg Host.Outcome.next h
  | succ n ih =>
    have hstep : liveOutcome (step s) = liveOutcome (step t) := by
      rw [← step_liveState s, h, step_liveState t]
    obtain ⟨u, v, hs, ht, huv⟩ | ⟨f, hs, ht⟩ | ⟨r, hs, ht⟩ := liveOutcome_eq_cases hstep
    · rw [run_succ_of_next hs, run_succ_of_next ht]; exact ih huv
    · rw [run_succ_of_fault hs, run_succ_of_fault ht]
    · rw [run_succ_of_refused hs, run_succ_of_refused ht]

/-- The host observes only the live part of an outcome (10_state R35). -/
theorem observe_liveOutcome (o : Host.Outcome State Fault Refusal) : observe (liveOutcome o) = observe o := by
  cases o with
  | next s => simp [observe]
  | fault => rfl
  | refused => rfl

/-- Settles O59: the two states have one live part, and what the host observes of a run depends on that alone. -/
theorem hiddenRegistersNeverShow : Obligations.HiddenRegistersNeverShow := by
  intro s t n hsd htd hsb htb hse hte hbuf hacc heovr hill hresp hin
  have hlive : liveState s = liveState t := by
    simp only [liveState, liveDec_of_seekSync0 hsd hsb, liveDec_of_seekSync0 htd htb, liveEnc_of_idle hse,
      liveEnc_of_idle hte, hbuf, hacc, heovr, hill, hresp, hin]
  calc observe (core.run n s) = observe (liveOutcome (core.run n s)) := (observe_liveOutcome _).symm
    _ = observe (liveOutcome (core.run n t)) := by rw [run_congr_liveState n hlive]
    _ = observe (core.run n t) := observe_liveOutcome _

end Sys2Proof.Machine
end

section
/-! PROOFS. The sticky bits (10_state R34): what one operation, and one step, can do to them. -/

namespace Sys2Proof.Machine

/-- An operation leaves both sticky bits alone, or is one that a busy encoder answers by setting STATUS_EOVR, or is
STATUS.CLR (10_state R33, R34). -/
theorem exec_sticky {i : Instr} {s t : State} (h : exec i s = .next t) :
    (t.eovr = s.eovr ∧ t.ill = s.ill)
      ∨ (s.enc.state ≠ .idle ∧ ((∃ c q n, i = .encStart c q n) ∨ ∃ k b, i = .encWrbuf k b)
          ∧ t.eovr = true ∧ t.ill = s.ill)
      ∨ (i = .statusClr ∧ t.eovr = false ∧ t.ill = false) := by
  cases i
  case encWrbuf k b =>
    simp only [exec, execEncWrbuf] at h
    split at h <;> cases h
    · next hbusy => exact .inr (.inl ⟨of_decide_eq_true hbusy, .inr ⟨k, b, rfl⟩, rfl, rfl⟩)
    · exact .inl ⟨rfl, rfl⟩
  case encStart c q n =>
    simp only [exec, execEncStart] at h
    split at h
    · next hbusy => cases h; exact .inr (.inl ⟨of_decide_eq_true hbusy, .inl ⟨c, q, n, rfl⟩, rfl, rfl⟩)
    · split at h <;> cases h
      exact .inl ⟨rfl, rfl⟩
  case encNext =>
    simp only [exec, execEncNext] at h
    split at h <;> cases h
    exact .inl ⟨rfl, rfl⟩
  case statusClr => cases h; exact .inr (.inr ⟨rfl, rfl, rfl⟩)
  all_goals cases h; exact .inl ⟨rfl, rfl⟩

@[simp] theorem reset_eovr : State.reset.eovr = false := rfl
@[simp] theorem reset_ill : State.reset.ill = false := rfl

/-- Settles O52: every kind of step, and every kind of operation, by what it does to the two bits. -/
theorem stickyBitsChangeOnlyAsStated : Obligations.StickyBitsChangeOnlyAsStated := by
  intro s t hstep
  obtain ⟨-, rfl⟩ | ⟨rest, hin, rfl⟩ | ⟨w, rest, i, hin, hdec, hexec⟩ | ⟨w, rest, why, hin, hdec, rfl⟩ :=
    step_cases hstep
  case inr.inr.inl =>
    obtain ⟨heovr, hill⟩ | ⟨hbusy, hop, heovr, hill⟩ | ⟨rfl, heovr, hill⟩ := exec_sticky hexec
    · simp_all
    · refine ⟨fun _ _ => ⟨hbusy, w, rest, hin, ?_⟩, by simp_all, by simp_all⟩
      rw [hdec]
      simpa using hop
    · exact ⟨by simp_all, by simp_all, fun _ => ⟨heovr, hill, rest, .inr ⟨w, hin, hdec⟩⟩⟩
  · simp_all
  · simp [hin]
  · simp [hin, hdec, Decoded.toOption]

end Sys2Proof.Machine
end

section
/-! PROOFS. Reset and the bounds of the invariant (10_state R20, R28, R32, R37). -/

namespace Sys2Proof.Machine

/-- Every byte of ENC_BUF is 0x00 right after reset (10_state R37). -/
theorem memRead_reset {i : Nat} (hi : i < 32) : memRead State.reset.enc.buf i = some 0x00#8 := if_pos hi

/-- Settles O1: each register by its definition, and ENC_BUF by what an unlisted index reads as. -/
theorem resetGivesEveryRegisterItsValue : Obligations.ResetGivesEveryRegisterItsValue :=
  ⟨rfl, rfl, rfl, rfl, rfl, rfl, rfl, rfl, fun _ hi => memRead_reset hi, rfl, rfl, rfl, rfl⟩

theorem encoderReset_inv : EncInv Encoder.reset := by
  simp [EncInv, Encoder.reset]

/-- Settles O55: after reset the decoder is as after DecInit, the encoder is idle, and no cell is listed. -/
theorem invariantHoldsAtReset : Obligations.InvariantHoldsAtReset :=
  ⟨decInit_inv, encoderReset_inv, reset_wf⟩

/-- The decoder's invariant bounds DEC_BUF by 32 bytes: it is empty before the payload, below DEC_LEN during it, and
of length DEC_LEN after it (10_state R28). -/
theorem DecInv.buf_length_le {d : Decoder} (h : DecInv d) : d.buf.length ≤ Config.maxLen := by
  obtain ⟨hempty, -, -, -, hpay, hchk, -⟩ := h
  cases hs : d.state
  case payloadByte =>
    obtain ⟨-, hlen, hbuf, -⟩ := hpay hs
    omega
  case checksumHigh | checksumLow =>
    obtain ⟨hlen, hbuf, -⟩ := hchk (by simp [hs])
    omega
  all_goals simp [hempty (by simp [hs])]

/-- Settles O56. -/
theorem invariantBoundsBuffers : Obligations.InvariantBoundsBuffers := by
  intro s ⟨hdec, ⟨hidx, hlen, _⟩, _⟩
  exact ⟨hdec.buf_length_le, hidx, hlen⟩

end Sys2Proof.Machine
end

section
/-! PROOFS. ENC_BUF as the operations see it, through MemRead and MemWrite (20_memory R41). -/

namespace Sys2Proof.Machine

theorem memRead_of_lt {i : Nat} (h : i < 32) (m : Memory) : memRead m i = some (cellAt m i) := if_pos h

theorem memRead_of_ge {i : Nat} (h : 32 ≤ i) (m : Memory) : memRead m i = none := if_neg (Nat.not_lt.2 h)

/-- Inside ENC_BUF by what a cell holds after a write; outside it neither side reads anything, and no 5-bit index is
there. -/
theorem memRead_memWrite {m : Memory} (hm : m.wf = true) (i : BitVec 5) (v : Byte) (k : Nat) :
    memRead (memWrite m i v) k = if i.toNat = k then some v else memRead m k := by
  by_cases hk : k < 32
  · rw [memRead_of_lt hk, memRead_of_lt hk, cellAt_memWrite hm, apply_ite some]
  · have hne : i.toNat ≠ k := by omega
    rw [if_neg hne, memRead_of_ge (by omega), memRead_of_ge (by omega)]

/-- Buffers in canonical form that MemRead cannot tell apart are the same list: outside ENC_BUF no cell is listed. -/
theorem eq_of_memRead_eq {m n : Memory} (hm : m.wf = true) (hn : n.wf = true)
    (h : ∀ k, k < 32 → memRead m k = memRead n k) : m = n := by
  refine cells_ext hm hn fun k => ?_
  by_cases hk : k < 32
  · have hread := h k hk
    rwa [memRead_of_lt hk, memRead_of_lt hk, Option.some_inj] at hread
  · rw [cellAt_outside hm (Nat.not_lt.1 hk), cellAt_outside hn (Nat.not_lt.1 hk)]

/-- Settles O38. -/
theorem encBufReadsBackWhatWasWritten : Obligations.EncBufReadsBackWhatWasWritten := by
  intro m i v hm
  refine ⟨?_, fun k hk => ?_, fun k hk => memRead_of_ge hk m, memWrite_wf hm i v, fun n hn h => eq_of_memRead_eq hm hn h⟩
  · rw [memRead_memWrite hm, if_pos rfl]
  · rw [memRead_memWrite hm, if_neg hk.symm]

end Sys2Proof.Machine
end

section
/-! PROOFS. Each unit's operations as functions of that unit's registers alone (20_memory R54). -/

namespace Sys2Proof.Machine

/-! ### The encoder -/

/-- What an encoder operation leaves in ENC_* and STATUS_EOVR and what it answers, or how it ends the run. -/
abbrev EncEffect := Host.Outcome (Encoder × Bool × Resp) Fault Refusal

/-- ENC.WRBUF over the encoder's registers and STATUS_EOVR (41_encoder R91). -/
def wrbufEffect (idx : BitVec 5) (b8 : Byte) (e : Encoder) (eovr : Bool) : EncEffect :=
  if encBusy e then .next (e, true, .none) else .next ({ e with buf := memWrite e.buf idx b8 }, eovr, .none)

/-- ENC.START over the encoder's registers and STATUS_EOVR (41_encoder R92). -/
def startEffect (cmd seq len : Byte) (e : Encoder) (eovr : Bool) : EncEffect :=
  if encBusy e then .next (e, true, .none)
  else if len.toNat > Config.maxLen then .refused (.refuse .encOverlength)
  else .next (startFrame cmd seq len e, eovr, .none)

/-- ENC.NEXT over the encoder's registers; STATUS_EOVR is handed on (41_encoder R93). -/
def nextEffect (e : Encoder) (eovr : Bool) : EncEffect :=
  match encAdvance e with
  | some (f, r) => .next (f, eovr, r)
  | none => .fault .encBufIndex

/-- The outcome for the whole block: every register outside ENC_* and STATUS_EOVR stays. -/
def EncEffect.apply (s : State) : EncEffect → Host.Outcome State Fault Refusal
  | .next x => .next { s with enc := x.1, eovr := x.2.1, resp := some x.2.2 }
  | .fault x => .fault x
  | .refused x => .refused x

theorem execEncWrbuf_eq_apply (idx : BitVec 5) (b8 : Byte) (s : State) :
    execEncWrbuf idx b8 s = (wrbufEffect idx b8 s.enc s.eovr).apply s := by
  unfold execEncWrbuf wrbufEffect
  split <;> rfl

theorem execEncStart_eq_apply (cmd seq len : Byte) (s : State) :
    execEncStart cmd seq len s = (startEffect cmd seq len s.enc s.eovr).apply s := by
  unfold execEncStart startEffect
  split
  · rfl
  · split <;> rfl

theorem execEncNext_eq_apply (s : State) : execEncNext s = (nextEffect s.enc s.eovr).apply s := by
  unfold execEncNext nextEffect
  cases encAdvance s.enc <;> rfl

/-- An operation of the encoder is a function of ENC_* and STATUS_EOVR that writes those, or ends the run. -/
theorem exec_encoder_eq_apply {i : Instr}
    (hi : (∃ k b, i = .encWrbuf k b) ∨ (∃ c q n, i = .encStart c q n) ∨ i = .encNext) :
    ∃ f : Encoder → Bool → EncEffect, ∀ s : State, exec i s = (f s.enc s.eovr).apply s := by
  obtain ⟨k, b, rfl⟩ | ⟨c, q, n, rfl⟩ | rfl := hi
  · exact ⟨wrbufEffect k b, execEncWrbuf_eq_apply k b⟩
  · exact ⟨startEffect c q n, execEncStart_eq_apply c q n⟩
  · exact ⟨nextEffect, execEncNext_eq_apply⟩

/-! ### The CRC unit and the decoder -/

theorem exec_crc_eq {i : Instr} (hi : (∃ v, i = .crcLoad v) ∨ (∃ b, i = .crcUpdate b) ∨ i = .crcRead) :
    ∃ f : Half → Half × Resp,
      ∀ s : State, exec i s = .next { s with crcAcc := (f s.crcAcc).1, resp := some (f s.crcAcc).2 } := by
  obtain ⟨v, rfl⟩ | ⟨b, rfl⟩ | rfl := hi
  · exact ⟨fun _ => (v, .none), fun _ => rfl⟩
  · exact ⟨fun acc => (crcStep acc b, .none), fun _ => rfl⟩
  · exact ⟨fun acc => (acc, .rdata acc), fun _ => rfl⟩

theorem exec_decoder_eq {i : Instr} (hi : i = .decReset ∨ ∃ b, i = .decFeed b) :
    ∃ f : Decoder → Decoder × Resp,
      ∀ s : State, exec i s = .next { s with dec := (f s.dec).1, resp := some (f s.dec).2 } := by
  obtain rfl | ⟨b, rfl⟩ := hi
  · exact ⟨fun _ => (decInit, .none), fun _ => rfl⟩
  · exact ⟨feedByte b, fun _ => rfl⟩

/-! ### Control and invalid words -/

/-- The STATUS word over the two unit states, the length of DEC_BUF and the sticky bits: `statusWord`, with nothing
else of the state in reach (43_control R131). -/
def statusOf (ds : DecState) (len : Nat) (es : EncState) (eovr ill : Bool) : Half :=
  (dstateEnc ds).zeroExtend 16
    ||| ((estateEnc es).zeroExtend 16 <<< 4)
    ||| ((BitVec.ofNat 6 len).zeroExtend 16 <<< 8)
    ||| ((BitVec.ofBool eovr).zeroExtend 16 <<< 14)
    ||| ((BitVec.ofBool ill).zeroExtend 16 <<< 15)

theorem statusWord_eq_statusOf (s : State) :
    statusWord s = statusOf s.dec.state s.dec.buf.length s.enc.state s.eovr s.ill := rfl

theorem execStatusRead_eq (s : State) :
    execStatusRead s
      = .next { s with
          resp := some (.rdata (statusOf s.dec.state s.dec.buf.length s.enc.state s.eovr s.ill)) } := by
  rw [← statusWord_eq_statusOf]
  rfl

/-- The command step on an invalid word, whatever makes it invalid (43_control R133). -/
theorem wordStep_of_decode_invalid {w : Word} (hdec : (decode w).toOption = none) (s : State) :
    wordStep w s = .next (invalidWord s) := by
  cases h : decode w with
  | valid i => simp [h, Decoded.toOption] at hdec
  | invalid why => simp only [wordStep, h]

/-- Settles O53, unit by unit. -/
theorem unitsAreIndependent : Obligations.UnitsAreIndependent := by
  refine ⟨fun i hi => exec_crc_eq hi, fun i hi => exec_decoder_eq hi, fun i hi => ?_, fun s => rfl,
    fun w s hdec => wordStep_of_decode_invalid hdec s, fun s => rfl, statusOf, execStatusRead_eq⟩
  obtain ⟨f, hf⟩ := exec_encoder_eq_apply hi
  exact ⟨f, fun s => hf s⟩

end Sys2Proof.Machine
end

section
/-! PROOFS. The opcode map and the words (30_encoding R55 to R60): which row a word matches, that an operation's word and
a valid word determine each other, and the illegal words by their fields. -/

namespace Sys2Proof

open Machine

/-- Settles O10. -/
theorem decodeOfEncodeIsTheInstruction : Obligations.DecodeOfEncodeIsTheInstruction := decode_encode

/-! ### The rows -/

/-- No row's mask clears a bit of OP (30_encoding R58). -/
theorem opField_mask_of_mem {r : OpRow} (hr : r ∈ opRows) : opField r.mask = 0xF#4 := by
  revert r
  decide

theorem opField_and (v w : Word) : opField (v &&& w) = opField v &&& opField w := by
  simp [opField, BitVec.extractLsb'_and]

/-- A word that a row matches has that row's OP. -/
theorem opField_of_match {w : Word} {r : OpRow} (hr : r ∈ opRows) (hw : w &&& r.mask = r.bits) :
    opField w = opField r.bits := by
  rw [← hw, opField_and, opField_mask_of_mem hr]
  exact BitVec.and_allOnes.symm

/-- No two rows share an OP value (30_encoding R59). -/
theorem opRows_op_nodup : (opRows.map (fun r => opField r.bits)).Nodup := by decide

/-- At most one row matches a word: its OP tells which (30_encoding R59). -/
theorem eq_of_match_of_match {w : Word} {r q : OpRow} (hr : r ∈ opRows) (hq : q ∈ opRows)
    (hwr : w &&& r.mask = r.bits) (hwq : w &&& q.mask = q.bits) : r = q := by
  have hop : opField r.bits = opField q.bits := (opField_of_match hr hwr).symm.trans (opField_of_match hq hwq)
  exact List.inj_on_of_nodup_map opRows_op_nodup hr hq hop

/-- R59's loop answers with a row that matches. -/
theorem exists_match_of_decodeBy {w : Word} {rows : List OpRow} {i : Instr} (h : decodeBy w rows = .valid i) :
    ∃ r ∈ rows, w &&& r.mask = r.bits ∧ r.read w = i := by
  induction rows with
  | nil => cases h
  | cons r rows ih =>
    unfold decodeBy at h
    split at h
    · next hw => cases h; exact ⟨r, .head _, hw, rfl⟩
    · obtain ⟨q, hq, hwq⟩ := ih h
      exact ⟨q, .tail _ hq, hwq⟩

/-- Where some row matches, R59's loop answers. -/
theorem decodeBy_isValid_of_match {w : Word} {rows : List OpRow} {r : OpRow} (hr : r ∈ rows)
    (hw : w &&& r.mask = r.bits) : ∃ i, decodeBy w rows = .valid i := by
  induction rows with
  | nil => cases hr
  | cons q rows ih =>
    unfold decodeBy
    split
    · exact ⟨_, rfl⟩
    · next hq =>
      obtain rfl | hr := List.mem_cons.1 hr
      · exact absurd hw hq
      · exact ih hr

theorem decode_eq_valid_iff (w : Word) (i : Instr) :
    decode w = .valid i ↔ ∃ r ∈ opRows, w &&& r.mask = r.bits ∧ r.read w = i := by
  refine ⟨exists_match_of_decodeBy, fun ⟨r, hr, hw, hread⟩ => ?_⟩
  obtain ⟨j, hj⟩ := decodeBy_isValid_of_match hr hw
  obtain ⟨q, hq, hwq, hqread⟩ := exists_match_of_decodeBy hj
  rw [decode, hj, ← hqread, ← eq_of_match_of_match hr hq hw hwq, hread]

/-- Settles O8. -/
theorem validWordsAreThoseOfTheOpcodeMap : Obligations.ValidWordsAreThoseOfTheOpcodeMap :=
  ⟨opRows_op_nodup, fun w => ⟨decode_eq_valid_iff w, fun _ hr _ hq => eq_of_match_of_match hr hq⟩⟩

/-! ### A valid word from its fields -/

theorem toNat_packWord_zero (op : BitVec 4) : (packWord op 0#24).toNat = op.toNat * 2 ^ 28 := by
  rw [toNat_packWord, BitVec.toNat_zero, Nat.add_zero]

theorem packWord_packN_of_match {w : Word} (op : BitVec 4) (h : w &&& 0xFFFFFFFF#32 = packWord op 0#24) :
    packWord op packN = w := by
  have hval := (and_mask0 w _).1 h
  exact (BitVec.eq_of_toNat_eq hval).symm

theorem packWord_packH_of_match {w : Word} (op : BitVec 4) (h : w &&& 0xFFFF0000#32 = packWord op 0#24) :
    packWord op (packH (imm16Field w)) = w := by
  have hval := (and_mask16 w _ (by rw [toNat_packWord_zero]; omega)).1 h
  apply BitVec.eq_of_toNat_eq
  rw [toNat_packWord_zero] at hval
  rw [toNat_packWord, toNat_packH, imm16Field, toNat_field]
  omega

theorem packWord_packB_of_match {w : Word} (op : BitVec 4) (h : w &&& 0xFFFFFF00#32 = packWord op 0#24) :
    packWord op (packB (b8Field w)) = w := by
  have hval := (and_mask8 w _ (by rw [toNat_packWord_zero]; omega)).1 h
  apply BitVec.eq_of_toNat_eq
  rw [toNat_packWord_zero] at hval
  rw [toNat_packWord, toNat_packB, b8Field, toNat_field]
  omega

theorem packWord_packIB_of_match {w : Word} (op : BitVec 4) (h : w &&& 0xFFFFE000#32 = packWord op 0#24) :
    packWord op (packIB (idxField w) (b8Field w)) = w := by
  have hval := (and_mask13 w _ (by rw [toNat_packWord_zero]; omega)).1 h
  apply BitVec.eq_of_toNat_eq
  rw [toNat_packWord_zero] at hval
  rw [toNat_packWord, toNat_packIB, idxField, b8Field, toNat_field, toNat_field]
  omega

theorem packWord_packCSL_of_match {w : Word} (op : BitVec 4) (h : w &&& 0xFF000000#32 = packWord op 0#24) :
    packWord op (packCSL (cmdField w) (seqField w) (lenField w)) = w := by
  have hval := (and_mask24 w _ (by rw [toNat_packWord_zero]; omega)).1 h
  apply BitVec.eq_of_toNat_eq
  rw [toNat_packWord_zero] at hval
  rw [toNat_packWord, toNat_packCSL, cmdField, seqField, lenField, toNat_field, toNat_field, toNat_field]
  omega

/-- The operation that a row reads from a word it matches has that word: the match gives the bits above the operands,
and the operands are the bits below. -/
theorem encode_read_of_match (w : Word) : ∀ r ∈ opRows, w &&& r.mask = r.bits → encode (r.read w) = w := by
  simp only [opRows, List.forall_mem_cons]
  exact ⟨packWord_packN_of_match 0x0#4, packWord_packH_of_match 0x1#4, packWord_packB_of_match 0x2#4,
    packWord_packN_of_match 0x3#4, packWord_packN_of_match 0x4#4, packWord_packB_of_match 0x5#4,
    packWord_packIB_of_match 0x6#4, packWord_packCSL_of_match 0x7#4, packWord_packN_of_match 0x8#4,
    packWord_packN_of_match 0x9#4, packWord_packN_of_match 0xA#4, List.forall_mem_nil _⟩

/-- Settles O11. -/
theorem encodeOfDecodeIsTheWord : Obligations.EncodeOfDecodeIsTheWord := by
  intro w i hdec
  obtain ⟨r, hr, hw, rfl⟩ := (decode_eq_valid_iff w i).1 hdec
  exact encode_read_of_match w r hr hw

/-! ### The illegal words -/

theorem field_bne_zero (w : Word) (lo n : Nat) :
    (w.extractLsb' lo n != 0#n) = true ↔ w.toNat / 2 ^ lo % 2 ^ n ≠ 0 := by
  rw [bne_iff_ne, ← toNat_field, Ne, ← BitVec.toNat_inj]
  rfl

/-- Settles O9, OP by OP: for each, the row's comparison says that RSV and the format's must-be-zero bits are zero. -/
theorem invalidWordsAreTheIllegalEncodings : Obligations.InvalidWordsAreTheIllegalEncodings := by
  intro w
  have hlt := w.isLt
  rw [decode_none_iff]
  simp only [illegalWord, mustBeZeroBitSet, opField, rsvField, Bool.or_eq_true, decide_eq_true_eq, field_bne_zero,
    toNat_field]
  split
  case h_11 => -- OP 0x7 has no must-be-zero bit; 0xB to 0xF are reserved
    simp only [imp_false, Bool.false_eq_true, or_false] at *
    omega
  all_goals
    simp only [field_bne_zero]
    omega

end Sys2Proof
end

section
/-! PROOFS. The assembler: the examples of 30_encoding R71 and the range checks of R69. -/

namespace Sys2Proof.Machine

/-- Settles O7: every row of the table is a closed fact, which the assembler and the decoder evaluate. -/
theorem exampleWordsDecode : Obligations.ExampleWordsDecode := by
  unfold Obligations.ExampleWordsDecode
  decide

theorem toSource_wellFormed (i : Instr) : i.toSource.wellFormed = true := by
  open Laws.OperandsFit in
  cases i with
  | nop => exact nop
  | crcLoad v => exact crcLoad v
  | crcUpdate b => exact crcUpdate b
  | crcRead => exact crcRead
  | decReset => exact decReset
  | decFeed b => exact decFeed b
  | encWrbuf k b => exact encWrbuf k b
  | encStart c q n => exact encStart c q n
  | encNext => exact encNext
  | statusRead => exact statusRead
  | statusClr => exact statusClr

/-- An operation's source line passes the range checks, and each operand reads back from its number. -/
theorem assembleOp_toSource (i : Instr) : assembleOp i.toSource = some (encode i) := by
  unfold assembleOp
  rw [if_pos (toSource_wellFormed i)]
  cases i <;> simp [Instr.toSource]

theorem assembleOp_eq_none {op : SourceOp} (h : op.wellFormed = false) : assembleOp op = none := by
  simp [assembleOp, h]

theorem fitsField_eq_false {w n : Nat} (h : 2 ^ w ≤ n) : fitsField w n = false :=
  decide_eq_false (Nat.not_lt.2 h)

/-- Settles O12. -/
theorem assemblerChecksRanges : Obligations.AssemblerChecksRanges := by
  refine ⟨assembleOp_toSource, fun v => ?_, fun n hn => ?_, fun n hn => ?_, fun n b h => ?_, fun c q n h => ?_⟩
  · simp [assembleOp, SourceOp.wellFormed, fitsField]
  · exact assembleOp_eq_none (fitsField_eq_false hn)
  · exact ⟨assembleOp_eq_none (fitsField_eq_false hn), assembleOp_eq_none (fitsField_eq_false hn)⟩
  · apply assembleOp_eq_none
    obtain hn | hb := h
    · simp [SourceOp.wellFormed, fitsField_eq_false (w := 5) hn]
    · simp [SourceOp.wellFormed, fitsField_eq_false (w := 8) hb]
  · apply assembleOp_eq_none
    obtain hc | hq | hn := h
    · simp [SourceOp.wellFormed, fitsField_eq_false (w := 8) hc]
    · simp [SourceOp.wellFormed, fitsField_eq_false (w := 8) hq]
    · simp [SourceOp.wellFormed, fitsField_eq_false (w := 8) hn]

end Sys2Proof.Machine
end

section
/-! PROOFS. Which operation gives which response (30_encoding R72). -/

namespace Sys2Proof.Machine

/-- ENC.WRBUF answers None, the write taken or ignored (41_encoder R91). -/
theorem execEncWrbuf_resp {k : BitVec 5} {b : Byte} {s t : State} (h : execEncWrbuf k b s = .next t) :
    t.resp = some .none := by
  unfold execEncWrbuf at h
  split at h <;> cases h <;> rfl

/-- ENC.START answers None, the start taken or ignored (41_encoder R92). -/
theorem execEncStart_resp {c q n : Byte} {s t : State} (h : execEncStart c q n s = .next t) :
    t.resp = some .none := by
  unfold execEncStart at h
  split at h
  · cases h; rfl
  · split at h <;> cases h
    rfl

/-- ENC.NEXT answers None from an idle encoder and Tx from a busy one (41_encoder R93, R94). -/
theorem execEncNext_resp {s t : State} (h : execEncNext s = .next t) :
    (s.enc.state = .idle ∧ t.resp = some .none) ∨ (s.enc.state ≠ .idle ∧ ∃ b, t.resp = some (.tx b)) := by
  unfold execEncNext at h
  split at h
  · next f r hadv =>
    cases h
    obtain ⟨-, -, -, -, ⟨hidle, rfl, -⟩ | ⟨hbusy, b, rfl⟩⟩ := encAdvance_frame hadv
    · exact .inl ⟨hidle, rfl⟩
    · exact .inr ⟨hbusy, b, rfl⟩
  · cases h

/-- Settles O13, operation by operation: DEC.FEED and ENC.NEXT by what one byte or one advance answers, the others by
the response they name. -/
theorem responsesByOperation : Obligations.ResponsesByOperation := by
  intro i s t h
  cases i with
  | crcRead => cases h; exact ⟨_, rfl, by simp⟩
  | statusRead => cases h; exact ⟨_, rfl, by simp⟩
  | encWrbuf k b => exact ⟨_, execEncWrbuf_resp h, by simp⟩
  | encStart c q n => exact ⟨_, execEncStart_resp h, by simp⟩
  | encNext =>
    obtain ⟨hidle, hresp⟩ | ⟨hbusy, b, hresp⟩ := execEncNext_resp h
    · exact ⟨_, hresp, by simp [hidle]⟩
    · exact ⟨_, hresp, by simp [hbusy]⟩
  | decFeed b =>
    cases h
    obtain ⟨hs, hresp⟩ | ⟨hs, -, ⟨heq, hresp⟩ | ⟨hne, hresp⟩⟩ := feedByte_response b s.dec
    · exact ⟨_, congrArg some hresp, by simp [hs]⟩
    · exact ⟨_, congrArg some hresp, by simpa [hs] using heq⟩
    · exact ⟨_, congrArg some hresp, by simpa [hs] using hne⟩
  | nop => cases h; exact ⟨_, rfl, by simp⟩
  | crcLoad => cases h; exact ⟨_, rfl, by simp⟩
  | crcUpdate => cases h; exact ⟨_, rfl, by simp⟩
  | decReset => cases h; exact ⟨_, rfl, by simp⟩
  | statusClr => cases h; exact ⟨_, rfl, by simp⟩

end Sys2Proof.Machine
end

section
/-! PROOFS. The pseudo-instructions CRC.CALC and ENC.FRAME (30_encoding R70): what their expansions respond and
leave. -/

namespace Sys2Proof.Machine

/-- A run starts with its first operation's step. -/
theorem runOps_cons_of_next {i : Instr} {s u : State} (h : exec i s = .next u) (ops : List Instr) :
    runOps (i :: ops) s = (runOps ops u).map (fun v => (v.1, u.resp :: v.2)) := by
  simp only [runOps, h]

/-- A run of two lists, each answered. -/
theorem runOps_append_eq_some {a b : List Instr} {s u t : State} {rs rs' : List (Option Resp)}
    (ha : runOps a s = some (u, rs)) (hb : runOps b u = some (t, rs')) :
    runOps (a ++ b) s = some (t, rs ++ rs') := by
  rw [runOps_append, ha]
  simp only [Option.bind_some, hb, Option.map_some]

theorem runOps_singleton_of_next {i : Instr} {s u : State} (h : exec i s = .next u) :
    runOps [i] s = some (u, [u.resp]) :=
  runOps_cons_of_next h []

/-! ### CRC.CALC -/

/-- CRC.UPDATES folds its bytes into CRC_ACC, responds None to each, and changes nothing else (40_crc R85). -/
theorem runOps_crcUpdates (bs : List Byte) (s : State) :
    runOps (crcUpdates bs) (respond .none s)
      = some (respond .none { s with crcAcc := crc16 s.crcAcc bs }, List.replicate bs.length (some .none)) := by
  induction bs generalizing s with
  | nil => rfl
  | cons b bs ih =>
    have hstep : exec (.crcUpdate b) (respond .none s)
        = .next (respond .none { s with crcAcc := crcStep s.crcAcc b }) := rfl
    rw [crcUpdates, List.map_cons, runOps_cons_of_next hstep, ← crcUpdates, ih]
    rfl

/-- Settles O20. -/
theorem crcCalcReturnsTheChecksum : Obligations.CrcCalcReturnsTheChecksum := by
  intro init bs s
  have hload : exec (.crcLoad init) s = .next (respond .none { s with crcAcc := init }) := rfl
  rw [crcCalc, runOps_cons_of_next hload,
    runOps_append_eq_some (runOps_crcUpdates bs _) (runOps_singleton_of_next rfl)]
  rfl

/-! ### ENC.LOAD -/

/-- ENC_BUF after the ENC.WRBUF steps of a payload from index `k` on (`encLoadFrom`, 41_encoder R91). -/
def loadFrom (k : Nat) : List Byte → Memory → Memory
  | [], m => m
  | b :: rest, m => loadFrom (k + 1) rest (memWrite m (BitVec.ofNat 5 k) b)

/-- Writing at `k` leaves the first `k` bytes of ENC_BUF. -/
theorem bufTake_memWrite {m : Memory} (hm : m.wf = true) {k : Nat} (hk : k < 32) (b : Byte) :
    bufTake (memWrite m (BitVec.ofNat 5 k) b) (k + 1) = bufTake m k ++ [b] := by
  have hidx : (BitVec.ofNat 5 k).toNat = k := by rw [BitVec.toNat_ofNat]; omega
  have hbelow : bufTake (memWrite m (BitVec.ofNat 5 k) b) k = bufTake m k := by
    refine List.map_congr_left fun j hj => ?_
    have hjk : k ≠ j := (List.mem_range.1 hj).ne'
    rw [cellAt_memWrite hm, hidx, if_neg hjk]
  rw [bufTake_succ, hbelow, cellAt_memWrite hm, hidx, if_pos rfl]

/-- A payload loaded from `k` on stands after the first `k` bytes that were there. -/
theorem bufTake_loadFrom (p : List Byte) {k : Nat} {m : Memory} (hm : m.wf = true) (hk : k + p.length ≤ 32) :
    bufTake (loadFrom k p m) (k + p.length) = bufTake m k ++ p := by
  induction p generalizing k m with
  | nil => simp [loadFrom]
  | cons b p ih =>
    rw [List.length_cons] at hk ⊢
    calc bufTake (loadFrom (k + 1) p (memWrite m (BitVec.ofNat 5 k) b)) (k + (p.length + 1))
      _ = bufTake (memWrite m (BitVec.ofNat 5 k) b) (k + 1) ++ p := by
        rw [← ih (memWrite_wf hm _ b) (by omega)]; congr 1; omega
      _ = bufTake m k ++ b :: p := by rw [bufTake_memWrite hm (by omega), List.append_assoc]; rfl

theorem exec_encWrbuf_of_idle {s : State} (hs : s.enc.state = .idle) (k : BitVec 5) (b : Byte) :
    exec (.encWrbuf k b) s
      = .next (respond .none { s with enc := { s.enc with buf := memWrite s.enc.buf k b } }) := by
  simp [exec, execEncWrbuf, encBusy, hs]

/-- ENC.LOAD on an idle encoder fills ENC_BUF and changes nothing else. -/
theorem runOps_encLoadFrom (p : List Byte) (k : Nat) {s : State} (hs : s.enc.state = .idle) :
    ∃ r, runOps (encLoadFrom k p) s
      = some ({ s with enc := { s.enc with buf := loadFrom k p s.enc.buf }, resp := r },
          List.replicate p.length (some .none)) := by
  induction p generalizing k s with
  | nil => exact ⟨s.resp, rfl⟩
  | cons b p ih =>
    have hstep := exec_encWrbuf_of_idle hs (BitVec.ofNat 5 k) b
    obtain ⟨r, hrest⟩ := ih (k + 1)
      (s := respond .none { s with enc := { s.enc with buf := memWrite s.enc.buf (BitVec.ofNat 5 k) b } }) hs
    refine ⟨r, ?_⟩
    rw [encLoadFrom, runOps_cons_of_next hstep, hrest]
    rfl

/-! ### ENC.START and the ENC.NEXT steps -/

theorem exec_encStart_of_idle {s : State} (hs : s.enc.state = .idle) (c q : Byte) {n : Byte}
    (hn : n.toNat ≤ Config.maxLen) :
    exec (.encStart c q n) s = .next (respond .none { s with enc := startFrame c q n s.enc }) := by
  simp [exec, execEncStart, encBusy, hs, hn]

/-- The checksum of the frame that the encoder has latched (30_encoding R64). -/
def latchedCrc (e : Encoder) : Half := frameCrc e.cmd e.seq e.len (bufTake e.buf e.len.toNat)

/-- What the latched frame has after its header, from payload index ENC_IDX on (30_encoding R62). -/
def unsentTail (e : Encoder) : List Byte :=
  (bufTake e.buf e.len.toNat).drop e.idx.toNat ++ [hiByte (latchedCrc e), loByte (latchedCrc e)]

/-- The bytes of the latched frame that ENC.NEXT has still to transmit, by ENC_STATE (41_encoder R94 to R102). -/
def unsent (e : Encoder) : List Byte :=
  match e.state with
  | .idle => []
  | .sync0 => Config.sync0 :: Config.sync1 :: e.cmd :: e.seq :: e.len :: unsentTail e
  | .sync1 => Config.sync1 :: e.cmd :: e.seq :: e.len :: unsentTail e
  | .cmd => e.cmd :: e.seq :: e.len :: unsentTail e
  | .seq => e.seq :: e.len :: unsentTail e
  | .len => e.len :: unsentTail e
  | .payload | .crcHi => unsentTail e
  | .crcLo => [loByte (latchedCrc e)]

/-- Nothing is left to transmit exactly where the encoder is idle. -/
theorem unsent_eq_nil_iff (e : Encoder) : unsent e = [] ↔ e.state = .idle := by
  cases hs : e.state <;> simp [unsent, unsentTail, hs]

theorem unsent_eq_unsentTail {e : Encoder} (hs : e.state = .crcHi ∨ e.state = .payload) :
    unsent e = unsentTail e := by
  obtain hs | hs := hs <;> simp only [unsent, hs]

/-- Before the end of the payload the byte at ENC_IDX comes next. -/
theorem drop_bufTake {m : Memory} {i n : Nat} (h : i < n) :
    (bufTake m n).drop i = cellAt m i :: (bufTake m n).drop (i + 1) := by
  rw [List.drop_eq_getElem_cons (by simpa using h)]
  simp [bufTake]

theorem EncInv.idx_lt_len {e : Encoder} (h : EncInv e) (hs : e.state = .payload) : e.idx.toNat < e.len.toNat := by
  obtain ⟨-, -, -, hpay, -⟩ := h
  exact (hpay hs).2

/-- Past the payload ENC_CRC holds the checksum of the whole frame (10_state R32). -/
theorem EncInv.crc_eq_latchedCrc {e : Encoder} (h : EncInv e) (hs : e.state = .crcHi ∨ e.state = .crcLo) :
    e.crc = latchedCrc e := by
  obtain ⟨-, -, -, -, hidx, -, -, -, hcrc⟩ := h
  rw [hcrc (.inr hs), hidx hs, latchedCrc]

/-- Past the payload the checksum is left. -/
theorem EncInv.unsentTail_of_crcHi {e : Encoder} (h : EncInv e) (hs : e.state = .crcHi) :
    unsentTail e = [hiByte (latchedCrc e), loByte (latchedCrc e)] := by
  obtain ⟨-, -, -, -, hidx, -⟩ := h
  rw [unsentTail, List.drop_of_length_le (by rw [bufTake_length, hidx (.inl hs)]), List.nil_append]

/-- One ENC.NEXT of a busy encoder transmits the first byte not yet sent (41_encoder R95 to R102). -/
theorem encAdvance_unsent {e f : Encoder} {r : Resp} (hinv : EncInv e) (hbusy : e.state ≠ .idle)
    (h : encAdvance e = some (f, r)) : ∃ b, r = .tx b ∧ unsent e = b :: unsent f := by
  have hcrc := hinv.crc_eq_latchedCrc
  unfold encAdvance at h
  cases hs : e.state <;> simp only [hs] at h
  case idle => exact absurd hs hbusy
  case len =>
    cases h
    refine ⟨_, rfl, ?_⟩
    calc unsent e = e.len :: unsentTail e := by simp only [unsent, hs]
      _ = e.len :: unsent (nextLen e).1 := by rw [unsent_eq_unsentTail (ite_eq_or_eq _ _ _)]; rfl
  case payload =>
    rw [memRead_of_inv hinv hs] at h
    cases h
    refine ⟨_, rfl, ?_⟩
    rw [unsent_eq_unsentTail (.inr hs), unsent_eq_unsentTail (ite_eq_or_eq _ _ _)]
    simp only [unsentTail, drop_bufTake (hinv.idx_lt_len hs), idx_succ hinv hs]
    rfl
  case crcHi =>
    cases h
    refine ⟨_, rfl, ?_⟩
    rw [unsent_eq_unsentTail (.inl hs), hinv.unsentTail_of_crcHi hs, hcrc (.inl hs)]
    rfl
  case crcLo =>
    cases h
    refine ⟨_, rfl, ?_⟩
    rw [hcrc (.inr hs)]
    simp only [unsent, hs]
  all_goals
    cases h
    refine ⟨_, rfl, ?_⟩
    simp only [unsent, hs]
    rfl

/-- A busy encoder transmits the bytes not yet sent, one an ENC.NEXT, and is then idle; nothing outside the encoder and
not ENC_BUF changes (41_encoder R103). -/
theorem runOps_encNext_unsent (w : List Byte) {s : State} (hinv : EncInv s.enc) (hw : unsent s.enc = w) :
    ∃ e r, runOps (List.replicate w.length .encNext) s
        = some ({ s with enc := e, resp := r }, w.map (fun b => some (.tx b)))
      ∧ e.state = .idle ∧ e.buf = s.enc.buf := by
  induction w generalizing s with
  | nil => exact ⟨s.enc, s.resp, rfl, (unsent_eq_nil_iff _).1 hw, rfl⟩
  | cons b w ih =>
    have hbusy : s.enc.state ≠ .idle := fun hidle => by simp [(unsent_eq_nil_iff _).2 hidle] at hw
    obtain ⟨f, r, hadv⟩ := encAdvance_isSome hinv
    obtain ⟨b', rfl, hunsent⟩ := encAdvance_unsent hinv hbusy hadv
    obtain ⟨rfl, hw⟩ := List.cons.inj (hw.symm.trans hunsent)
    have hstep : exec .encNext s = .next (respond (.tx b) { s with enc := f }) := by
      simp only [exec, execEncNext, hadv]
    obtain ⟨e, r, hrun, hidle, hbuf⟩ :=
      ih (s := respond (.tx b) { s with enc := f }) (encAdvance_inv hinv hadv) hw.symm
    obtain ⟨-, -, -, hfbuf, -⟩ := encAdvance_frame hadv
    refine ⟨e, r, ?_, hidle, hbuf.trans hfbuf⟩
    rw [List.length_cons, List.replicate_succ, runOps_cons_of_next hstep, hrun]
    rfl

/-! ### ENC.FRAME -/

/-- After a start on a buffer that holds the payload, what is left to transmit is the encoding of the frame
(41_encoder R90). -/
theorem unsent_startFrame {c q : Byte} {p w : List Byte} {e : Encoder} (hw : encodeFrame c q p = some w)
    (hbuf : bufTake e.buf p.length = p) : unsent (startFrame c q (lenByte p) e) = w := by
  obtain ⟨hlen, rfl⟩ := encodeFrame_some hw
  simp [unsent, unsentTail, latchedCrc, lenByte_toNat hlen, hbuf]

theorem encodeFrame_length {c q : Byte} {p w : List Byte} (hw : encodeFrame c q p = some w) :
    w.length = 7 + p.length := by
  obtain ⟨-, rfl⟩ := encodeFrame_some hw
  simp only [List.length_append, List.length_cons, List.length_nil]
  omega

/-- The expansion of ENC.FRAME for a payload that ENCODE takes. -/
theorem encFrame_of_length_le {p : List Byte} (hp : p.length ≤ Config.maxLen) (c q : Byte) :
    encFrame c q p
      = some (encLoadFrom 0 p ++ [.encStart c q (lenByte p)] ++ List.replicate (7 + p.length) .encNext) := by
  simp [encFrame, encLoad, hp, lenByte]

/-- Settles O48: ENC.LOAD stages the payload, ENC.START makes the whole frame the bytes to transmit, and the ENC.NEXT
steps transmit them. -/
theorem encFrameTransmitsTheFrame : Obligations.EncFrameTransmitsTheFrame := by
  intro c q p w ops s hidle hwf hw hops
  obtain ⟨hlen, -⟩ := encodeFrame_some hw
  obtain rfl := Option.some.inj (hops.symm.trans (encFrame_of_length_le hlen c q))
  have hbuf : bufTake (loadFrom 0 p s.enc.buf) p.length = p := by
    have h := bufTake_loadFrom p hwf (k := 0) (by rw [Nat.zero_add]; exact hlen)
    rwa [Nat.zero_add, bufTake_zero, List.nil_append] at h
  have hn : (lenByte p).toNat ≤ Config.maxLen := by rwa [lenByte_toNat hlen]
  obtain ⟨r, hload⟩ := runOps_encLoadFrom p 0 hidle
  have hstart := exec_encStart_of_idle
    (s := { s with enc := { s.enc with buf := loadFrom 0 p s.enc.buf }, resp := r }) hidle c q hn
  obtain ⟨e, r', hnext, hidle', hbuf'⟩ := runOps_encNext_unsent w
    (s := respond .none { s with enc := startFrame c q (lenByte p) { s.enc with buf := loadFrom 0 p s.enc.buf } })
    (startFrame_inv c q hn _) (unsent_startFrame hw hbuf)
  rw [encodeFrame_length hw] at hnext
  refine ⟨{ s with enc := e, resp := r' }, ?_, hidle', ?_, rfl⟩
  · rw [runOps_append_eq_some (runOps_append_eq_some hload (runOps_singleton_of_next hstart)) hnext,
      List.replicate_succ', List.append_assoc]
    simp
  · rw [hbuf']; exact hbuf

end Sys2Proof.Machine
end

section
/-! PROOFS. The checksum functions and the CRC unit's operations (40_crc R80 to R86). -/

namespace Sys2Proof.Machine

/-! ### CrcStep on plain numbers -/

/-- A round on 16 bits is the masked round on the number: the mask drops the bit that the shift puts above bit 15, and
the polynomial has no such bit (40_crc R80). -/
theorem toNat_crcRound (a : Half) : (crcRound a).toNat = crcRoundNat a.toNat := by
  have hmask : ∀ n : Nat, n &&& 0xFFFF = n % 2 ^ 16 := fun n => Nat.and_two_pow_sub_one_eq_mod n 16
  unfold crcRound crcRoundNat
  rw [BitVec.getLsbD]
  split
  · rw [BitVec.toNat_xor, BitVec.toNat_shiftLeft, hmask, Nat.xor_mod_two_pow]
    rfl
  · rw [BitVec.toNat_shiftLeft, hmask]

/-- The byte lands in bits 15:8. -/
theorem toNat_byte_shifted (b : Byte) : (b.zeroExtend 16 <<< 8 : Half).toNat = b.toNat <<< 8 := by
  have hb : b.toNat < 2 ^ 8 := b.isLt
  rw [BitVec.toNat_shiftLeft, BitVec.toNat_setWidth, Nat.shiftLeft_eq, Nat.shiftLeft_eq]
  omega

/-- Settles O14, round by round. -/
theorem crcStepIsEightMaskedRounds : Obligations.CrcStepIsEightMaskedRounds := by
  intro acc b
  simp only [crcStep, crcRounds, toNat_crcRound, BitVec.toNat_xor, toNat_byte_shifted]

/-! ### Laws of the checksum -/

/-- CrcStep looks at the accumulator and the byte through their XOR only (40_crc R83, law 3). -/
theorem crcStep_eq_crcStep_zero (acc : Half) (b : Byte) :
    crcStep acc b = crcStep (acc ^^^ (b.zeroExtend 16 <<< 8)) 0x00#8 := by
  simp [crcStep]

/-- Settles O15: the example values and the fixed point are single byte steps, which evaluate. -/
theorem checksumLaws : Obligations.ChecksumLaws := by
  refine ⟨fun a p k _ => ?_, crcStep_eq_crcStep_zero, by decide, by decide, by decide⟩
  rw [← crc16_append, List.take_append_drop]

/-- Settles O16: the step on the changed byte tells the two bytes apart, and the bytes after it lose nothing. -/
theorem checksumDetectsEveryOneByteChange : Obligations.ChecksumDetectsEveryOneByteChange := by
  intro acc p q x y hxy h
  rw [crc16_append, crc16_append, crc16_cons, crc16_cons] at h
  exact hxy (crcStep_injective_byte (crc16_injective h))

/-! ### CRC.LOAD, CRC.UPDATE, CRC.READ -/

/-- The command word of CRC.LOAD (40_crc R84). -/
theorem encode_crcLoad (v : Half) : encode (.crcLoad v) = 0x1000#16 ++ v := by
  apply BitVec.eq_of_toNat_eq
  rw [encode, toNat_packWord, toNat_packH, BitVec.toNat_append, ← Nat.shiftLeft_add_eq_or_of_lt v.isLt]
  rfl

/-- The command word of CRC.UPDATE (40_crc R85). -/
theorem encode_crcUpdate (b : Byte) : encode (.crcUpdate b) = 0x200000#24 ++ b := by
  apply BitVec.eq_of_toNat_eq
  rw [encode, toNat_packWord, toNat_packB, BitVec.toNat_append, ← Nat.shiftLeft_add_eq_or_of_lt b.isLt]
  rfl

/-- Settles O17. -/
theorem crcLoadSetsTheAccumulator : Obligations.CrcLoadSetsTheAccumulator := by
  intro v s
  rw [← encode_crcLoad]
  exact ⟨decode_encode _, rfl⟩

/-- CRC.UPDATES from any state leaves CRC16 of its bytes in CRC_ACC (40_crc R85). -/
theorem crcAcc_runOps_crcUpdates (bs : List Byte) (s : State) :
    (runOps (crcUpdates bs) s).map (fun u => u.1.crcAcc) = some (crc16 s.crcAcc bs) := by
  cases bs with
  | nil => rfl
  | cons b bs =>
    have hstep : exec (.crcUpdate b) s = .next (respond .none { s with crcAcc := crcStep s.crcAcc b }) := rfl
    rw [crcUpdates, List.map_cons, runOps_cons_of_next hstep, ← crcUpdates, runOps_crcUpdates]
    rfl

/-- Settles O18: the corner cases and the example are single byte steps, which evaluate. -/
theorem crcUpdateFoldsOneByte : Obligations.CrcUpdateFoldsOneByte := by
  refine ⟨fun b s => ⟨?_, rfl⟩, by decide, by decide, by decide, by decide, crcAcc_runOps_crcUpdates⟩
  rw [← encode_crcUpdate]
  exact decode_encode _

/-- Settles O19: the example is nine byte steps, which evaluate. -/
theorem crcReadReturnsTheAccumulator : Obligations.CrcReadReturnsTheAccumulator :=
  ⟨decode_encode .crcRead, fun _ => rfl, rfl, by decide +kernel⟩

end Sys2Proof.Machine
end

section
/-! PROOFS. A whole frame through the decoder, with any two bytes where its checksum stands (42_decoder R108 to R115):
with the payload's own checksum it comes out, with that of a payload one bit away it is a mismatch (R122). -/

namespace Sys2Proof.Machine

/-! ### A frame with any checksum -/

/-- A frame on the wire with `v` where its checksum stands (30_encoding R62). -/
def frameWith (c q : Byte) (p : List Byte) (v : Half) : List Byte :=
  [Config.sync0, Config.sync1, c, q, lenByte p] ++ p ++ [hiByte v, loByte v]

/-- What the decoder answers on the last byte of `frameWith c q p v` (42_decoder R115). -/
def frameVerdict (c q : Byte) (p : List Byte) (v : Half) : Resp :=
  if v = frameCrc c q (lenByte p) p then .frameOut (frameOf c q p)
  else .mismatch
    { cmd := c, seq := q, len := lenByte p, rxCrc := v, calcCrc := frameCrc c q (lenByte p) p }

/-- The decoder with a whole payload received and its checksum to come. -/
def awaitingChecksum (c q : Byte) (p : List Byte) (rx : Half) : Decoder :=
  { state := .checksumHigh, cmd := c, seq := q, len := lenByte p, buf := p, crc := frameCrc c q (lenByte p) p,
    rxCrc := rx }

/-- The frame that ENCODE answers is the one with the payload's own checksum (41_encoder R90). -/
theorem encodeFrame_eq_frameWith {c q : Byte} {p w : List Byte} (hw : encodeFrame c q p = some w) :
    w = frameWith c q p (frameCrc c q (lenByte p) p) :=
  (encodeFrame_some hw).2

theorem frameVerdict_frameCrc (c q : Byte) (p : List Byte) :
    frameVerdict c q p (frameCrc c q (lenByte p) p) = .frameOut (frameOf c q p) :=
  if_pos rfl

theorem frameVerdict_of_ne {c q : Byte} {p : List Byte} {v : Half} (hv : v ≠ frameCrc c q (lenByte p) p) :
    frameVerdict c q p v = .mismatch
      { cmd := c, seq := q, len := lenByte p, rxCrc := v, calcCrc := frameCrc c q (lenByte p) p } :=
  if_neg hv

/-- The sync bytes and a header with a length of at most 32, from SEEK_SYNC0 (42_decoder R108 to R112). -/
theorem feedBytes_header (c q : Byte) {n : Byte} (hn : n.toNat ≤ Config.maxLen) {d : Decoder}
    (hs : d.state = .seekSync0) (hbuf : d.buf = []) :
    feedBytes [Config.sync0, Config.sync1, c, q, n] d
      = ({ state := if n = 0x00#8 then .checksumHigh else .payloadByte, cmd := c, seq := q, len := n, buf := [],
           crc := frameCrc c q n [], rxCrc := d.rxCrc },
          List.replicate 5 (some .none)) := by
  have hgt : ¬ n.toNat > Config.maxLen := Nat.not_lt.2 hn
  by_cases hz : n = 0x00#8 <;>
    simp [feedBytes, feedByte, hs, hbuf, feedSeekSync0, feedSeekSync1, feedCommandByte, feedSequenceByte,
      feedLengthByte, hgt, hz, frameCrc_eq, List.replicate_succ]

theorem lenByte_eq_zero_iff {p : List Byte} (hp : p.length ≤ Config.maxLen) : lenByte p = 0x00#8 ↔ p = [] := by
  rw [← BitVec.toNat_inj, lenByte_toNat hp]
  exact List.length_eq_zero_iff

/-- The sync bytes, the header and the payload of a frame, from SEEK_SYNC0 (42_decoder R108 to R113). -/
theorem feedBytes_header_payload (c q : Byte) {p : List Byte} (hp : p.length ≤ Config.maxLen) {d : Decoder}
    (hs : d.state = .seekSync0) (hbuf : d.buf = []) :
    feedBytes ([Config.sync0, Config.sync1, c, q, lenByte p] ++ p) d
      = (awaitingChecksum c q p d.rxCrc, List.replicate (5 + p.length) (some .none)) := by
  have hlen := lenByte_toNat hp
  rw [feedBytes_append, feedBytes_header c q (by rwa [hlen]) hs hbuf]
  by_cases hnil : p = []
  · subst hnil
    rfl
  · rw [if_neg (mt (lenByte_eq_zero_iff hp).1 hnil), feedBytes_payload p _ rfl hnil (by simp [hlen])]
    simp only [List.replicate_append_replicate, List.nil_append]
    rfl

/-- The two checksum bytes end the frame with its verdict (42_decoder R114, R115). -/
theorem feedBytes_checksum (c q : Byte) (p : List Byte) (v rx : Half) :
    feedBytes [hiByte v, loByte v] (awaitingChecksum c q p rx)
      = (decInit, [some .none, some (frameVerdict c q p v)]) := by
  have hrx := hi_or_lo v
  simp only [feedBytes, feedByte, awaitingChecksum, feedChecksumHigh, feedChecksumLow, hrx, frameVerdict]
  split <;> rfl

/-- A whole frame responds None on all bytes but the last and its verdict on the last, and leaves the decoder
initialised (42_decoder R120, R122). -/
theorem feedBytes_frameWith (c q : Byte) {p : List Byte} (hp : p.length ≤ Config.maxLen) (v : Half) {d : Decoder}
    (hinv : DecInv d) (hs : d.state = .seekSync0) :
    feedBytes (frameWith c q p v) d
      = (decInit, List.replicate (6 + p.length) (some .none) ++ [some (frameVerdict c q p v)]) := by
  obtain ⟨hbuf, -⟩ := hinv
  rw [frameWith, feedBytes_append, feedBytes_header_payload c q hp hs (hbuf (.inl hs)), feedBytes_checksum]
  simp only [show 6 + p.length = 5 + p.length + 1 by omega, List.replicate_succ', List.append_assoc,
    List.singleton_append]

/-- The same, as a run of DEC.FEED steps. -/
theorem runOps_frameWith (c q : Byte) {p : List Byte} (hp : p.length ≤ Config.maxLen) (v : Half) {s : State}
    (hinv : DecInv s.dec) (hs : s.dec.state = .seekSync0) :
    ∃ r, runOps (decFeeds (frameWith c q p v)) s
      = some ({ s with dec := decInit, resp := r },
          List.replicate (6 + p.length) (some .none) ++ [some (frameVerdict c q p v)]) := by
  obtain ⟨r, hrun⟩ := runOps_decFeeds (frameWith c q p v) s
  rw [feedBytes_frameWith c q hp v hinv hs] at hrun
  exact ⟨r, hrun⟩

/-- A frame that ENCODE answers comes out on its last byte, and leaves the decoder initialised (42_decoder R120). -/
theorem runOps_encodeFrame {c q : Byte} {p w : List Byte} (hw : encodeFrame c q p = some w) {s : State}
    (hinv : DecInv s.dec) (hs : s.dec.state = .seekSync0) :
    ∃ r, runOps (decFeeds w) s
      = some ({ s with dec := decInit, resp := r },
          List.replicate (6 + p.length) (some .none) ++ [some (.frameOut (frameOf c q p))]) := by
  obtain ⟨hp, -⟩ := encodeFrame_some hw
  rw [encodeFrame_eq_frameWith hw, ← frameVerdict_frameCrc]
  exact runOps_frameWith c q hp _ hinv hs

/-! ### One flipped bit -/

@[simp] theorem length_flipBit (p : List Byte) (k : Nat) (j : Fin 8) : (flipBit p k j).length = p.length :=
  List.length_modify ..

@[simp] theorem lenByte_flipBit (p : List Byte) (k : Nat) (j : Fin 8) : lenByte (flipBit p k j) = lenByte p := by
  rw [lenByte, length_flipBit, lenByte]

theorem xor_bit_ne (b : Byte) (j : Fin 8) : b ^^^ (1#8 <<< j.val) ≠ b := by
  have hbit : (1#8 <<< j.val : Byte) ≠ 0#8 := by revert j; decide
  simpa using hbit

/-- A flipped bit changes one byte of the sequence and leaves those before and after it. -/
theorem exists_split_flipBit {p : List Byte} {k : Nat} (hk : k < p.length) (j : Fin 8) :
    ∃ a b x y, x ≠ y ∧ flipBit p k j = a ++ x :: b ∧ p = a ++ y :: b :=
  ⟨p.take k, p.drop (k + 1), p[k] ^^^ (1#8 <<< j.val), p[k], xor_bit_ne _ j,
    List.modify_eq_take_cons_drop hk, by simp⟩

/-- CRC16 detects every single flipped bit (42_decoder R122). -/
theorem crc16_flipBit_ne (acc : Half) {p : List Byte} {k : Nat} (hk : k < p.length) (j : Fin 8) :
    crc16 acc (flipBit p k j) ≠ crc16 acc p := by
  obtain ⟨a, b, x, y, hxy, hflip, hp⟩ := exists_split_flipBit hk j
  rw [hflip, hp]
  exact checksumDetectsEveryOneByteChange acc a b x y hxy

/-- The header stays, so the flipped bit changes the frame's checksum (30_encoding R64). -/
theorem frameCrc_flipBit_ne (c q n : Byte) {p : List Byte} {k : Nat} (hk : k < p.length) (j : Fin 8) :
    frameCrc c q n (flipBit p k j) ≠ frameCrc c q n p := by
  rw [frameCrc_eq, frameCrc_eq]
  exact crc16_flipBit_ne _ hk j

/-- A frame with a bit of its payload flipped is the flipped payload's frame with the checksum of the payload before
the flip. -/
theorem flipBit_encodeFrame {c q : Byte} {p w : List Byte} (hw : encodeFrame c q p = some w) (k : Nat) (j : Fin 8) :
    w.take 5 ++ flipBit p k j ++ w.drop (5 + p.length)
      = frameWith c q (flipBit p k j) (frameCrc c q (lenByte p) p) := by
  rw [encodeFrame_eq_frameWith hw]
  simp [frameWith, Nat.add_comm 5]

/-- Settles O34: the flipped frame carries the checksum of another payload, which is a mismatch and leaves the decoder
initialised, so that the next frame comes out. -/
theorem singleBitErrorGivesMismatch : Obligations.SingleBitErrorGivesMismatch := by
  refine ⟨fun acc bs k j hk => crc16_flipBit_ne acc hk j, ?_⟩
  intro c q p w k j s hw hk hinv hs
  obtain ⟨hp, -⟩ := encodeFrame_some hw
  have hcrc : frameCrc c q (lenByte p) p ≠ frameCrc c q (lenByte (flipBit p k j)) (flipBit p k j) := by
    rw [lenByte_flipBit]
    exact (frameCrc_flipBit_ne c q _ hk j).symm
  obtain ⟨r, hrun⟩ := runOps_frameWith c q (by rwa [length_flipBit p k j]) (frameCrc c q (lenByte p) p) hinv hs
  rw [← flipBit_encodeFrame hw, frameVerdict_of_ne hcrc, length_flipBit] at hrun
  refine ⟨_, _, hrun, rfl, fun c' q' p' w' hw' => ?_⟩
  obtain ⟨r', hrun'⟩ := runOps_encodeFrame hw' (s := { s with dec := decInit, resp := r }) decInit_inv rfl
  exact ⟨_, hrun'⟩

end Sys2Proof.Machine
end

section
/-! PROOFS. The encoder's operations from each of its states, and ENCODE as the frames on the wire, the serializer with
other operations between the ENC.NEXT steps, and the round trip through the decoder (41_encoder R90 to R103,
42_decoder R120). -/

namespace Sys2Proof.Machine

/-! ### ENC.WRBUF and ENC.START -/

theorem exec_encWrbuf_of_busy {s : State} (hs : s.enc.state ≠ .idle) (k : BitVec 5) (b : Byte) :
    exec (.encWrbuf k b) s = .next (respond .none (setEovr s)) := by
  simp [exec, execEncWrbuf, encBusy, hs]

/-- The busy check comes before the length check (41_encoder R92). -/
theorem exec_encStart_of_busy {s : State} (hs : s.enc.state ≠ .idle) (c q n : Byte) :
    exec (.encStart c q n) s = .next (respond .none (setEovr s)) := by
  simp [exec, execEncStart, encBusy, hs]

theorem exec_encStart_of_overlength {s : State} (hs : s.enc.state = .idle) (c q : Byte) {n : Byte}
    (hn : Config.maxLen < n.toNat) : exec (.encStart c q n) s = .refused (.refuse .encOverlength) := by
  simp [exec, execEncStart, encBusy, hs, hn]

/-- The command word of ENC.WRBUF (41_encoder R91). -/
theorem encode_encWrbuf (k : BitVec 5) (b : Byte) : encode (.encWrbuf k b) = 0x6000#16 ++ 0#3 ++ k ++ b := by
  apply BitVec.eq_of_toNat_eq
  rw [encode, toNat_packWord, toNat_packIB, BitVec.toNat_append, BitVec.toNat_append,
    ← Nat.shiftLeft_add_eq_or_of_lt b.isLt, ← Nat.shiftLeft_add_eq_or_of_lt k.isLt,
    show (0x6000#16 ++ 0#3).toNat = 0x30000 from rfl]
  simp only [Nat.shiftLeft_eq, BitVec.toNat_ofNat]
  omega

/-- The command word of ENC.START (41_encoder R92). -/
theorem encode_encStart (c q n : Byte) : encode (.encStart c q n) = 0x70#8 ++ c ++ q ++ n := by
  apply BitVec.eq_of_toNat_eq
  rw [encode, toNat_packWord, toNat_packCSL, BitVec.toNat_append, BitVec.toNat_append, BitVec.toNat_append,
    ← Nat.shiftLeft_add_eq_or_of_lt n.isLt, ← Nat.shiftLeft_add_eq_or_of_lt q.isLt,
    ← Nat.shiftLeft_add_eq_or_of_lt c.isLt]
  simp only [Nat.shiftLeft_eq, BitVec.toNat_ofNat]
  omega

/-- Settles O39: idle, the new ENC_BUF is that of MemWrite. -/
theorem encWrbufWritesWhileIdle : Obligations.EncWrbufWritesWhileIdle := by
  intro k b s hwf
  refine ⟨?_, fun hidle => ⟨memWrite s.enc.buf k b, exec_encWrbuf_of_idle hidle k b, ?_, fun j hj => ?_⟩,
    fun hbusy => exec_encWrbuf_of_busy hbusy k b⟩
  · rw [← encode_encWrbuf]
    exact decode_encode _
  · rw [memRead_memWrite hwf, if_pos rfl]
  · rw [memRead_memWrite hwf, if_neg hj.symm]

/-- Settles O40, one lemma for each of R92's three cases. -/
theorem encStartLatchesTheFrame : Obligations.EncStartLatchesTheFrame := by
  intro c q n s
  refine ⟨?_, fun hbusy => exec_encStart_of_busy hbusy c q n,
    fun hidle hn => exec_encStart_of_overlength hidle c q hn, fun hidle hn => exec_encStart_of_idle hidle c q hn⟩
  rw [← encode_encStart]
  exact decode_encode _

/-! ### ENC.NEXT -/

/-- ENC.NEXT is its advance of the encoder, with nothing else changed (41_encoder R93). -/
theorem exec_encNext_of_advance {s : State} {x : Encoder × Resp} (h : encAdvance s.enc = some x) :
    exec .encNext s = .next (respond x.2 { s with enc := x.1 }) := by
  simp only [exec, execEncNext, h]

theorem encAdvance_of_payload {e : Encoder} (hinv : EncInv e) (hs : e.state = .payload) :
    encAdvance e = some (nextPayload (cellAt e.buf e.idx.toNat) e) := by
  simp only [encAdvance, hs, memRead_of_inv hinv hs, Option.map_some]

/-- Settles O41. -/
theorem encNextIdleAndSyncBytes : Obligations.EncNextIdleAndSyncBytes := by
  refine fun s => ⟨fun hs => ?_, fun hs => ?_, fun hs => ?_⟩
  · exact exec_encNext_of_advance (x := (s.enc, .none)) (by simp only [encAdvance, hs])
  · exact exec_encNext_of_advance (x := nextSync0 s.enc) (by simp only [encAdvance, hs])
  · exact exec_encNext_of_advance (x := nextSync1 s.enc) (by simp only [encAdvance, hs])

/-- Settles O42. -/
theorem encNextHeaderBytes : Obligations.EncNextHeaderBytes := by
  refine fun s => ⟨fun hs => ?_, fun hs => ?_, fun hs => ?_⟩
  · exact exec_encNext_of_advance (x := nextCmd s.enc) (by simp only [encAdvance, hs])
  · exact exec_encNext_of_advance (x := nextSeq s.enc) (by simp only [encAdvance, hs])
  · exact exec_encNext_of_advance (x := nextLen s.enc) (by simp only [encAdvance, hs])

/-- Settles O43: ENC_IDX is below 32, so MemRead has its byte and the increment does not wrap. -/
theorem encNextPayloadByte : Obligations.EncNextPayloadByte := by
  intro s hinv hs
  exact ⟨cellAt s.enc.buf s.enc.idx.toNat, s.enc.idx + 1#6, memRead_of_inv hinv hs, idx_succ hinv hs,
    exec_encNext_of_advance (encAdvance_of_payload hinv hs)⟩

/-- Settles O44. -/
theorem encNextChecksumBytes : Obligations.EncNextChecksumBytes := by
  refine fun s => ⟨fun hs => ?_, fun hs => ?_⟩
  · exact exec_encNext_of_advance (x := nextCrcHi s.enc) (by simp only [encAdvance, hs])
  · exact exec_encNext_of_advance (x := nextCrcLo s.enc) (by simp only [encAdvance, hs])

/-- Settles O45: under the invariant there is an advance, and every advance keeps the latches and ENC_BUF. -/
theorem encNextCompletesUnderTheInvariant : Obligations.EncNextCompletesUnderTheInvariant := by
  refine ⟨decode_encode .encNext, fun s hinv => ?_⟩
  obtain ⟨e, r, hadv⟩ := encAdvance_isSome hinv
  obtain ⟨hcmd, hseq, hlen, hbuf, hresp⟩ := encAdvance_frame hadv
  refine ⟨e, r, exec_encNext_of_advance hadv, hbuf, hcmd, hseq, hlen, ?_⟩
  obtain ⟨hidle, hr, he⟩ | ⟨hbusy, htx⟩ := hresp
  · exact ⟨fun _ => ⟨hr, he⟩, fun hbusy => absurd hidle hbusy⟩
  · exact ⟨fun hidle => absurd hidle hbusy, fun _ => htx⟩

/-! ### ENCODE and the wire format -/

/-- What ENCODE answers is a frame by R62's offsets: the length byte splits it into payload and checksum. -/
theorem isWireFrame_of_encodeFrame {c q : Byte} {p w : List Byte} (hw : encodeFrame c q p = some w) :
    isWireFrame w = true := by
  obtain ⟨hp, rfl⟩ := encodeFrame_some hw
  simp [isWireFrame, lenByte_toNat hp, hp]

/-- A frame by R62's offsets is ENCODE of its fields. -/
theorem exists_encodeFrame_of_isWireFrame {w : List Byte} (h : isWireFrame w = true) :
    ∃ c q p, encodeFrame c q p = some w := by
  unfold isWireFrame at h
  split at h
  · next s0 s1 c q n rest =>
    simp only [Bool.and_eq_true, beq_iff_eq, decide_eq_true_eq] at h
    obtain ⟨⟨⟨⟨rfl, rfl⟩, hn⟩, hrest⟩, hchk⟩ := h
    have hlen : (rest.take n.toNat).length = n.toNat := List.length_take_of_le (by omega)
    have hbyte : lenByte (rest.take n.toNat) = n := by rw [lenByte, hlen]; exact BitVec.ofNat_toNat 8 n
    refine ⟨c, q, rest.take n.toNat, ?_⟩
    rw [encodeFrame, hlen, if_pos hn, hbyte, ← hchk]
    simp
  · cases h

/-- Settles O46. -/
theorem encodeGivesExactlyTheWireFrames : Obligations.EncodeGivesExactlyTheWireFrames := by
  refine ⟨fun c q p hp => if_pos hp, fun c q p hp => if_neg (Nat.not_le.2 hp), fun c q p w hw => ?_,
    fun w hw => exists_encodeFrame_of_isWireFrame hw⟩
  exact ⟨isWireFrame_of_encodeFrame hw, encodeFrame_length hw, (encodeFrame_some hw).1⟩

/-! ### The serializer with other operations in between -/

/-- Every operation but ENC.NEXT completes on a busy encoder and leaves it alone (41_encoder R103). -/
theorem exec_of_busy {i : Instr} {s : State} (hbusy : s.enc.state ≠ .idle) (hi : i ≠ .encNext) :
    ∃ t, exec i s = .next t ∧ t.enc = s.enc := by
  cases i
  case encWrbuf k b => exact ⟨_, exec_encWrbuf_of_busy hbusy k b, rfl⟩
  case encStart c q n => exact ⟨_, exec_encStart_of_busy hbusy c q n, rfl⟩
  case encNext => exact absurd rfl hi
  all_goals exact ⟨_, rfl, rfl⟩

/-- An encoder with a byte to transmit is busy. -/
theorem busy_of_unsent_eq_cons {e : Encoder} {b : Byte} {w : List Byte} (hw : unsent e = b :: w) :
    e.state ≠ .idle :=
  mt (unsent_eq_nil_iff e).2 (by simp [hw])

/-- One ENC.NEXT of a busy encoder transmits the first byte not yet sent, and keeps the invariant and ENC_BUF. -/
theorem exec_encNext_unsent {s : State} (hinv : EncInv s.enc) {b : Byte} {w : List Byte}
    (hw : unsent s.enc = b :: w) :
    ∃ e, exec .encNext s = .next (respond (.tx b) { s with enc := e })
      ∧ EncInv e ∧ unsent e = w ∧ e.buf = s.enc.buf := by
  have hbusy := busy_of_unsent_eq_cons hw
  obtain ⟨e, r, hadv⟩ := encAdvance_isSome hinv
  obtain ⟨b', rfl, hunsent⟩ := encAdvance_unsent hinv hbusy hadv
  obtain ⟨rfl, rfl⟩ := List.cons.inj (hw.symm.trans hunsent)
  obtain ⟨-, -, -, hbuf, -⟩ := encAdvance_frame hadv
  exact ⟨e, exec_encNext_of_advance hadv, encAdvance_inv hinv hadv, rfl, hbuf⟩

/-- A run from the step of its first operation and the run of the others. -/
theorem runOps_cons_eq_some_of_next {i : Instr} {ops : List Instr} {s u t : State} {rs : List (Option Resp)}
    (hstep : exec i s = .next u) (hrun : runOps ops u = some (t, rs)) :
    runOps (i :: ops) s = some (t, u.resp :: rs) := by
  rw [runOps_cons_of_next hstep, hrun, Option.map_some]

theorem nextResponses_cons_encNext (ops : List Instr) (r : Option Resp) (rs : List (Option Resp)) :
    nextResponses (.encNext :: ops) (r :: rs) = r :: nextResponses ops rs := rfl

theorem nextResponses_cons_of_ne {i : Instr} (hi : i ≠ .encNext) (ops : List Instr) (r : Option Resp)
    (rs : List (Option Resp)) : nextResponses (i :: ops) (r :: rs) = nextResponses ops rs := by
  simp [nextResponses, hi]

/-- A run that holds one ENC.NEXT for each byte not yet sent and ends with the last of them transmits these bytes in
order, whatever stands in between: an ENC.NEXT takes the first of them off, any other operation leaves the busy encoder
alone (41_encoder R103). -/
theorem runOps_interleaved_unsent (ops : List Instr) {s : State} (hinv : EncInv s.enc)
    (hcount : (unsent s.enc).length = ops.count .encNext + 1) :
    ∃ t rs, runOps (ops ++ [.encNext]) s = some (t, rs)
      ∧ nextResponses (ops ++ [.encNext]) rs = (unsent s.enc).map (fun b => some (.tx b))
      ∧ t.enc.state = .idle ∧ t.enc.buf = s.enc.buf := by
  induction ops generalizing s with
  | nil =>
    obtain ⟨b, hw⟩ := List.length_eq_one_iff.1 hcount
    obtain ⟨e, hstep, -, hnil, hbuf⟩ := exec_encNext_unsent hinv hw
    exact ⟨_, _, runOps_singleton_of_next hstep, by rw [hw]; rfl, (unsent_eq_nil_iff e).1 hnil, hbuf⟩
  | cons i ops ih =>
    obtain ⟨b, w, hw⟩ := List.exists_cons_of_length_eq_add_one hcount
    by_cases hi : i = .encNext
    · subst hi
      obtain ⟨e, hstep, hinv', hw', hbuf⟩ := exec_encNext_unsent hinv hw
      rw [hw, List.count_cons_self, List.length_cons] at hcount
      obtain ⟨t, rs, hrun, hresp, hidle, hbuf'⟩ :=
        ih (s := respond (.tx b) { s with enc := e }) hinv' (by rw [← Nat.succ_inj.1 hcount, ← hw']; rfl)
      refine ⟨t, _, runOps_cons_eq_some_of_next hstep hrun, ?_, hidle, hbuf'.trans hbuf⟩
      rw [List.cons_append, nextResponses_cons_encNext, hresp, hw, ← hw']
      rfl
    · have hbusy := busy_of_unsent_eq_cons hw
      obtain ⟨u, hstep, henc⟩ := exec_of_busy hbusy hi
      rw [List.count_cons_of_ne hi] at hcount
      rw [← henc] at hinv hcount ⊢
      obtain ⟨t, rs, hrun, hresp, hidle, hbuf⟩ := ih hinv hcount
      refine ⟨t, _, runOps_cons_eq_some_of_next hstep hrun, ?_, hidle, hbuf⟩
      rw [List.cons_append, nextResponses_cons_of_ne hi, hresp]

theorem lenByte_bufTake (m : Memory) (n : Byte) : lenByte (bufTake m n.toNat) = n := by
  rw [lenByte, bufTake_length, BitVec.ofNat_toNat, BitVec.setWidth_eq]

/-- Settles O47: ENC.START makes the whole frame the bytes to transmit, and the run after it transmits them. -/
theorem serializerEmitsTheEncodedFrame : Obligations.SerializerEmitsTheEncodedFrame := by
  refine ⟨fun i s hbusy hi => ?_, fun c q n w ops s hidle hw hn hcount => ?_⟩
  · obtain ⟨t, hstep, henc⟩ := exec_of_busy hbusy hi
    refine ⟨t, hstep, henc, ?_⟩
    rintro (⟨k, b, rfl⟩ | ⟨c, q, n, rfl⟩)
    · exact Host.Outcome.next.inj (hstep.symm.trans (exec_encWrbuf_of_busy hbusy k b))
    · exact Host.Outcome.next.inj (hstep.symm.trans (exec_encStart_of_busy hbusy c q n))
  · have hstart := exec_encStart_of_idle hidle c q hn
    have hunsent : unsent (startFrame c q n s.enc) = w := by
      have h := unsent_startFrame (e := s.enc) hw (by rw [bufTake_length])
      rwa [lenByte_bufTake] at h
    have hlen : w.length = ops.count .encNext + 1 := by
      rw [encodeFrame_length hw, bufTake_length, hcount]
      omega
    obtain ⟨t, rs, hrun, hresp, hidle', hbuf⟩ := runOps_interleaved_unsent ops
      (s := respond .none { s with enc := startFrame c q n s.enc }) (startFrame_inv c q hn _)
      (by rwa [respond_enc, hunsent])
    rw [respond_enc, hunsent] at hresp
    refine ⟨t, _, runOps_cons_eq_some_of_next hstart hrun, ?_, hidle', hbuf⟩
    rw [List.cons_append, nextResponses_cons_of_ne (by simp), hresp]

/-! ### Encoder and decoder -/

/-- Settles O31: ENCODE answers the frame with the payload's own checksum, which the decoder gives out. -/
theorem roundTripThroughTheDecoder : Obligations.RoundTripThroughTheDecoder := by
  intro c q p w s hw hinv hs
  obtain ⟨r, hrun⟩ := runOps_encodeFrame hw hinv hs
  exact ⟨_, hrun, rfl⟩

end Sys2Proof.Machine
end

section
/-! PROOFS. One byte into the decoder, in each of its states, and what may come out of one step (42_decoder R106 to
R117). -/

namespace Sys2Proof.Machine

/-! ### DEC.RESET -/

/-- The field DSTATE of STATUS is the code of the decoder's state (10_state R33). -/
theorem statusWord_dstate (s : State) : (statusWord s).extractLsb' 0 3 = dstateEnc s.dec.state := by
  apply BitVec.eq_of_getLsbD_eq
  intro i hi
  simp [statusWord, hi, show i < 4 by omega, show i < 8 by omega, show i < 14 by omega, show i < 15 by omega,
    show i < 16 by omega]

/-- The field DCNT of STATUS is the count of DEC_BUF (10_state R33). -/
theorem statusWord_dcnt (s : State) : (statusWord s).extractLsb' 8 6 = dcnt s.dec := by
  apply BitVec.eq_of_getLsbD_eq
  intro i hi
  have hd : (dstateEnc s.dec.state).getLsbD (8 + i) = false := BitVec.getLsbD_of_ge _ _ (by omega)
  have he : (estateEnc s.enc.state).getLsbD (8 + i - 4) = false := BitVec.getLsbD_of_ge _ _ (by omega)
  simp [statusWord, hi, hd, he, show 8 + i < 14 by omega, show 8 + i < 15 by omega, show 8 + i < 16 by omega]

/-- Settles O21. -/
theorem decResetReinitialisesTheDecoder : Obligations.DecResetReinitialisesTheDecoder := by
  refine ⟨decode_encode .decReset, fun s => ⟨_, rfl, rfl, ?_, ?_⟩⟩
  · rw [statusWord_dstate]
    rfl
  · rw [statusWord_dcnt]
    rfl

/-! ### DEC.FEED in each state -/

/-- DEC.FEED is `feedByte` on the decoder, and changes nothing else but the response. -/
theorem exec_decFeed (b : Byte) (s : State) :
    exec (.decFeed b) s = .next { s with dec := (feedByte b s.dec).1, resp := some (feedByte b s.dec).2 } := rfl

theorem exec_decFeed_of_eq {b : Byte} {s : State} {d : Decoder} {r : Resp} (h : feedByte b s.dec = (d, r)) :
    exec (.decFeed b) s = .next { s with dec := d, resp := some r } := by
  rw [exec_decFeed, h]

/-- Settles O22. -/
theorem feedWhileSeekingSync : Obligations.FeedWhileSeekingSync := by
  refine fun b s => ⟨fun hs => ?_, fun hs => ?_⟩
  · split
    · next hb => exact exec_decFeed_of_eq (by simp [feedByte, hs, feedSeekSync0, hb, Config.sync0])
    · next hb => exact exec_decFeed_of_eq (by simp [feedByte, hs, feedSeekSync0, hb, Config.sync0])
  · split
    · next hb => exact exec_decFeed_of_eq (by simp [feedByte, hs, feedSeekSync1, hb, Config.sync1])
    · next hb => exact exec_decFeed_of_eq (by simp [feedByte, hs, feedSeekSync1, hb, Config.sync1])

/-- Settles O23. -/
theorem feedCommandAndSequenceBytes : Obligations.FeedCommandAndSequenceBytes :=
  fun _ _ => ⟨fun hs => exec_decFeed_of_eq (by simp only [feedByte, hs, feedCommandByte]),
    fun hs => exec_decFeed_of_eq (by simp only [feedByte, hs, feedSequenceByte])⟩

/-- Settles O24. -/
theorem feedLengthByteBoundsTheFrame : Obligations.FeedLengthByteBoundsTheFrame := by
  intro b s hs
  have hfeed : feedByte b s.dec = feedLengthByte b s.dec := by simp only [feedByte, hs]
  split
  · next hgt => exact exec_decFeed_of_eq (hfeed.trans (if_pos hgt))
  · next hle =>
    split
    · next hz => exact exec_decFeed_of_eq (hfeed.trans ((if_neg hle).trans (if_pos hz)))
    · next hz => exact exec_decFeed_of_eq (hfeed.trans ((if_neg hle).trans (if_neg hz)))

/-- Settles O25: while the buffer is not full the state stays the one it was. -/
theorem feedPayloadByteFillsTheBuffer : Obligations.FeedPayloadByteFillsTheBuffer := by
  intro b s hs
  split
  · next hfull => exact exec_decFeed_of_eq (by simp [feedByte, hs, feedPayloadByte, hfull])
  · next hmore => exact exec_decFeed_of_eq (by simp [feedByte, hs, feedPayloadByte, hmore])

/-- The shift of CHECKSUM_HIGH puts the byte in bits 15:8 over a zero low half (42_decoder R114). -/
theorem shifted_eq_append (b : Byte) : (b.zeroExtend 16 <<< 8 : Half) = b ++ 0x00#8 := by
  revert b; decide

/-- Settles O26. -/
theorem feedChecksumHighByte : Obligations.FeedChecksumHighByte :=
  fun b _ hs => exec_decFeed_of_eq (by simp only [feedByte, hs, feedChecksumHigh, shifted_eq_append b])

/-- Settles O27. -/
theorem feedChecksumLowByteEndsTheFrame : Obligations.FeedChecksumLowByteEndsTheFrame := by
  intro b s hs
  have hfeed : feedByte b s.dec = feedChecksumLow b s.dec := by simp only [feedByte, hs]
  split
  · next hmatch => exact exec_decFeed_of_eq (hfeed.trans (if_pos hmatch))
  · next hne => exact exec_decFeed_of_eq (hfeed.trans (if_neg hne))

/-! ### What one byte responds -/

/-- The command word of DEC.FEED (42_decoder R107). -/
theorem encode_decFeed (b : Byte) : encode (.decFeed b) = 0x500000#24 ++ b := by
  apply BitVec.eq_of_toNat_eq
  rw [encode, toNat_packWord, toNat_packB, BitVec.toNat_append, ← Nat.shiftLeft_add_eq_or_of_lt b.isLt]
  rfl

/-- Settles O28. -/
theorem decFeedCompletesInEveryState : Obligations.DecFeedCompletesInEveryState := by
  intro b s
  refine ⟨by rw [← encode_decFeed]; exact decode_encode _, _, _, exec_decFeed b s, ?_⟩
  obtain ⟨-, hnone⟩ | ⟨-, -, ⟨-, hframe⟩ | ⟨-, hmis⟩⟩ := feedByte_response b s.dec
  · exact .inl hnone
  · exact .inr (.inl ⟨_, hframe⟩)
  · exact .inr (.inr ⟨_, hmis⟩)

/-- A frame comes out in CHECKSUM_LOW only, when the checksums agree, and is the record of the decoder's registers
(42_decoder R115). -/
theorem feedByte_eq_frameOut {b : Byte} {d : Decoder} {f : Frame} (h : (feedByte b d).2 = .frameOut f) :
    d.state = .checksumLow ∧ d.rxCrc ||| b.zeroExtend 16 = d.crc
      ∧ f = { cmd := d.cmd, seq := d.seq, len := d.len, payload := d.buf, crc := d.crc } := by
  obtain ⟨-, hnone⟩ | ⟨hs, -, ⟨hmatch, hframe⟩ | ⟨-, hmis⟩⟩ := feedByte_response b d
  · cases h.symm.trans hnone
  · exact ⟨hs, hmatch, Resp.frameOut.inj (h.symm.trans hframe)⟩
  · cases h.symm.trans hmis

/-- A mismatch is reported in CHECKSUM_LOW only, when the checksums differ, with the decoder's registers, and leaves
the decoder initialised (42_decoder R115). -/
theorem feedByte_eq_mismatch {b : Byte} {d : Decoder} {m : MismatchInfo} (h : (feedByte b d).2 = .mismatch m) :
    (feedByte b d).1 = decInit ∧ d.rxCrc ||| b.zeroExtend 16 ≠ d.crc
      ∧ m = { cmd := d.cmd, seq := d.seq, len := d.len, rxCrc := d.rxCrc ||| b.zeroExtend 16, calcCrc := d.crc } := by
  obtain ⟨-, hnone⟩ | ⟨-, hinit, ⟨-, hframe⟩ | ⟨hne, hmis⟩⟩ := feedByte_response b d
  · cases h.symm.trans hnone
  · cases h.symm.trans hframe
  · exact ⟨hinit, hne, Resp.mismatch.inj (h.symm.trans hmis)⟩

/-- Settles O29: the record's fields are the registers that the invariant speaks of in CHECKSUM_LOW. -/
theorem frameOutIsAWellFormedFrame : Obligations.FrameOutIsAWellFormedFrame := by
  intro b s t f hinv hexec hresp
  cases hexec
  obtain ⟨hs, -, rfl⟩ := feedByte_eq_frameOut (Option.some.inj hresp)
  obtain ⟨-, -, -, -, -, hchk, -⟩ := hinv
  obtain ⟨hle, hlen, hcrc⟩ := hchk (.inr hs)
  refine ⟨hlen, hle, hcrc, fun (hz : s.dec.len = 0#8) => List.length_eq_zero_iff.1 ?_⟩
  rw [hlen, hz]
  rfl

/-- Settles O30. -/
theorem mismatchReportsDifferingChecksums : Obligations.MismatchReportsDifferingChecksums := by
  intro b s t m hexec hresp
  cases hexec
  have hmis : (feedByte b s.dec).2 = .mismatch m := Option.some.inj hresp
  obtain ⟨hinit, hne, rfl⟩ := feedByte_eq_mismatch hmis
  exact ⟨hne, rfl, rfl, rfl, rfl, rfl, by rw [hinit, hmis]; rfl⟩

end Sys2Proof.Machine
end

section
/-! PROOFS. The part of a frame that the decoder has received: every byte extends it or sends the decoder back to
SEEK_SYNC0, so that a frame comes out only after its whole encoding, and within a bounded number of bytes (42_decoder
R108 to R115, R121; 70_reset_and_hazards R173). -/

namespace Sys2Proof.Machine

/-! ### The frame received so far -/

/-- The bytes of a frame that the decoder has taken since its sync byte, read off the registers (30_encoding R62). -/
def framePrefix (d : Decoder) : List Byte :=
  match d.state with
  | .seekSync0 => []
  | .seekSync1 => [Config.sync0]
  | .commandByte => [Config.sync0, Config.sync1]
  | .sequenceByte => [Config.sync0, Config.sync1, d.cmd]
  | .lengthByte => [Config.sync0, Config.sync1, d.cmd, d.seq]
  | .payloadByte | .checksumHigh => [Config.sync0, Config.sync1, d.cmd, d.seq, d.len] ++ d.buf
  | .checksumLow => [Config.sync0, Config.sync1, d.cmd, d.seq, d.len] ++ d.buf ++ [hiByte d.rxCrc]

theorem framePrefix_of_seekSync0 {d : Decoder} (hs : d.state = .seekSync0) : framePrefix d = [] := by
  simp only [framePrefix, hs]

/-- The high half assigned by CHECKSUM_HIGH is the byte fed (42_decoder R114). -/
theorem hiByte_shifted (b : Byte) : hiByte (b.zeroExtend 16 <<< 8) = b := by
  revert b; decide

/-- A byte is the next one of the frame being received, or it sends the decoder back to SEEK_SYNC0. -/
theorem feedByte_framePrefix (b : Byte) {d : Decoder} (hinv : DecInv d) :
    (feedByte b d).1.state = .seekSync0 ∨ framePrefix (feedByte b d).1 = framePrefix d ++ [b] := by
  obtain ⟨hbuf, -⟩ := hinv
  unfold feedByte
  cases hs : d.state <;> simp only
  case seekSync0 =>
    unfold feedSeekSync0
    split
    · next hb => simp [framePrefix, hs, hb]
    · exact .inl hs
  case seekSync1 =>
    unfold feedSeekSync1
    split
    · next hb => simp [framePrefix, hs, hb]
    · exact .inl rfl
  case commandByte | sequenceByte => exact .inr (by simp [framePrefix, hs, feedCommandByte, feedSequenceByte])
  case lengthByte =>
    unfold feedLengthByte
    split
    · exact .inl rfl
    · split <;> exact .inr (by simp [framePrefix, hs, hbuf])
  case payloadByte =>
    right
    unfold feedPayloadByte
    split <;> simp [framePrefix, hs]
  case checksumHigh => exact .inr (by simp only [framePrefix, hs, feedChecksumHigh, hiByte_shifted])
  case checksumLow =>
    unfold feedChecksumLow
    simp only
    split <;> exact .inl rfl

/-- What has been received of a frame is the end of what was received before and the byte fed. -/
theorem framePrefix_feedByte_suffix (b : Byte) {d : Decoder} (hinv : DecInv d) :
    framePrefix (feedByte b d).1 <:+ framePrefix d ++ [b] := by
  obtain hseek | hext := feedByte_framePrefix b hinv
  · rw [framePrefix_of_seekSync0 hseek]
    exact List.nil_suffix
  · rw [hext]

/-- The same over any bytes: the decoder never holds a byte that was not among the last ones fed. -/
theorem framePrefix_feedBytes_suffix (bs : List Byte) {d : Decoder} (hinv : DecInv d) :
    framePrefix (feedBytes bs d).1 <:+ framePrefix d ++ bs := by
  induction bs generalizing d with
  | nil => simp [feedBytes]
  | cons b bs ih =>
    rw [List.append_cons]
    exact (ih (feedByte_inv b hinv)).trans (List.suffix_append_self_iff.2 (framePrefix_feedByte_suffix b hinv))

/-! ### A frame that comes out -/

/-- The last byte goes into the low half of the received checksum and leaves the high half (42_decoder R115). -/
theorem hiByte_or_low (v : Half) (b : Byte) : hiByte (v ||| b.zeroExtend 16) = hiByte v := by
  apply BitVec.eq_of_getLsbD_eq
  intro i hi
  simp [hiByte]

theorem loByte_or_low (v : Half) (b : Byte) : loByte (v ||| b.zeroExtend 16) = loByte v ||| b := by
  apply BitVec.eq_of_getLsbD_eq
  intro i hi
  simp [loByte, hi, show i < 16 by omega]

/-- The byte on which a frame comes out completes that frame's encoding (42_decoder R115, 30_encoding R62). -/
theorem encodeFrame_of_frameOut {b : Byte} {d : Decoder} {f : Frame} (hinv : DecInv d)
    (h : (feedByte b d).2 = .frameOut f) : encodeFrame f.cmd f.seq f.payload = some (framePrefix d ++ [b]) := by
  obtain ⟨hs, hmatch, rfl⟩ := feedByte_eq_frameOut h
  obtain ⟨-, -, -, -, -, hchk, hlow⟩ := hinv
  obtain ⟨hle, hlen, hcrc⟩ := hchk (.inr hs)
  have hbyte : lenByte d.buf = d.len := by rw [lenByte, hlen]; exact BitVec.ofNat_toNat 8 d.len
  have hhi : hiByte d.crc = hiByte d.rxCrc := by rw [← hmatch, hiByte_or_low]
  have hlo : loByte d.crc = b := by rw [← hmatch, loByte_or_low, hlow hs]; exact BitVec.zero_or
  rw [encodeFrame, if_pos (hlen ▸ hle), hbyte, ← hcrc, hhi, hlo]
  simp [framePrefix, hs]

/-- The last response of a run is that of the last byte, in the decoder after the others. -/
theorem exists_concat_of_getLast?_feedBytes {bs : List Byte} {d : Decoder} {r : Resp}
    (h : (feedBytes bs d).2.getLast? = some (some r)) :
    ∃ as b, bs = as ++ [b] ∧ (feedByte b (feedBytes as d).1).2 = r := by
  obtain rfl | ⟨as, b, rfl⟩ := List.eq_nil_or_concat bs
  · cases h
  · rw [List.concat_eq_append] at h ⊢
    rw [feedBytes_append] at h
    exact ⟨as, b, rfl, by simpa [feedBytes] using h⟩

/-- Settles O32: the bytes of the frame received so far are the end of the bytes fed, and the last byte completes them
to the frame's encoding. -/
theorem frameOutOnlyAfterItsEncoding : Obligations.FrameOutOnlyAfterItsEncoding := by
  intro bs s t rs f hinv hs hrun hlast
  obtain ⟨r, hfed⟩ := runOps_decFeeds bs s
  cases hrun.symm.trans hfed
  obtain ⟨as, b, rfl, hout⟩ := exists_concat_of_getLast?_feedBytes hlast
  obtain ⟨before, hbefore⟩ := framePrefix_feedBytes_suffix as hinv
  rw [framePrefix_of_seekSync0 hs, List.nil_append] at hbefore
  refine ⟨before, _, ?_, encodeFrame_of_frameOut (feedBytes_inv as hinv) hout⟩
  rw [← List.append_assoc, hbefore]

/-! ### The header -/

/-- Running DEC.FEED over bytes whose effect on the decoder is known. -/
theorem exists_runOps_decFeeds {bs : List Byte} {s : State} {d : Decoder} {rs : List (Option Resp)}
    (h : feedBytes bs s.dec = (d, rs)) : ∃ t, runOps (decFeeds bs) s = some (t, rs) ∧ t.dec = d := by
  obtain ⟨r, hrun⟩ := runOps_decFeeds bs s
  rw [h] at hrun
  exact ⟨_, hrun, rfl⟩

/-- The sync bytes, the command and the sequence byte, from SEEK_SYNC0 (42_decoder R108 to R111). -/
theorem feedBytes_sync_cmd_seq (c q : Byte) {d : Decoder} (hs : d.state = .seekSync0) :
    feedBytes [Config.sync0, Config.sync1, c, q] d
      = ({ d with state := .lengthByte, cmd := c, seq := q, crc := crc16 Config.crcInit [c, q] },
          List.replicate 4 (some .none)) := by
  simp [feedBytes, feedByte, hs, feedSeekSync0, feedSeekSync1, feedCommandByte, feedSequenceByte, List.replicate_succ]

/-- A header with a length above 32 is dropped without a response (42_decoder R112). -/
theorem feedBytes_overlength_header (c q : Byte) {n : Byte} (hn : Config.maxLen < n.toNat) {d : Decoder}
    (hs : d.state = .seekSync0) :
    feedBytes ([Config.sync0, Config.sync1, c, q] ++ [n]) d = (decInit, List.replicate 5 (some .none)) := by
  rw [feedBytes_append, feedBytes_sync_cmd_seq c q hs]
  simp [feedBytes, feedByte, feedLengthByte, hn, List.replicate_succ]

/-- Settles O33: the drop leaves an initial decoder, from which O32 holds. -/
theorem lengthThirtyThreeNeverYieldsAFrame : Obligations.LengthThirtyThreeNeverYieldsAFrame := by
  intro c q s _ hs
  obtain ⟨t, hrun, ht⟩ := exists_runOps_decFeeds (feedBytes_overlength_header c q (n := 0x21#8) (by decide) hs)
  have hstate : t.dec.state = .seekSync0 := by rw [ht]; rfl
  exact ⟨t, hrun, hstate, fun bs u rs f => frameOutOnlyAfterItsEncoding bs t u rs f (ht ▸ decInit_inv) hstate⟩

/-- The length byte 0 leaves an empty payload's checksum to come (42_decoder R112). -/
theorem feedBytes_zero_length {d : Decoder} (hs : d.state = .lengthByte) (hbuf : d.buf = [])
    (hcrc : d.crc = crc16 Config.crcInit [d.cmd, d.seq]) :
    feedBytes [0x00#8] d = (awaitingChecksum d.cmd d.seq [] d.rxCrc, [some .none]) := by
  simp [feedBytes, feedByte, hs, feedLengthByte, awaitingChecksum, hbuf, hcrc, frameCrc_eq, lenByte]

/-- Settles O35: the length byte 0 completes the header of an empty payload, whose checksum is all that is to come. -/
theorem zeroLengthFrameSkipsThePayload : Obligations.ZeroLengthFrameSkipsThePayload := by
  intro c q s ⟨hbuf, _⟩ hs
  obtain ⟨t, hheader, ht⟩ := exists_runOps_decFeeds (feedBytes_sync_cmd_seq c q hs)
  obtain ⟨u, hlength, hu⟩ := exists_runOps_decFeeds (s := t)
    (feedBytes_zero_length (by rw [ht]) (by rw [ht]; exact hbuf (.inl hs)) (by rw [ht]))
  rw [ht] at hu
  have hchecksum := feedBytes_checksum c q [] (frameCrc c q (lenByte []) []) s.dec.rxCrc
  rw [frameVerdict_frameCrc, ← hu] at hchecksum
  obtain ⟨v, hframe, -⟩ := exists_runOps_decFeeds hchecksum
  exact ⟨t, u, frameOf c q [], hheader, by rw [ht], hlength, by rw [hu]; rfl, ⟨v, hframe⟩, rfl, rfl, rfl, rfl⟩

/-! ### The bound after a sync -/

theorem length_framePrefix_le {d : Decoder} (hinv : DecInv d) : (framePrefix d).length ≤ Config.maxLen + 6 := by
  have hbuf := hinv.buf_length_le
  unfold framePrefix
  split <;> simp <;> omega

/-- Whatever is fed, the decoder is back in SEEK_SYNC0 before it has taken more bytes than the longest frame has: each
byte makes the frame received one longer until then. -/
theorem exists_take_seekSync0 (bs : List Byte) {d : Decoder} (hinv : DecInv d)
    (hlen : Config.maxLen + 6 < (framePrefix d).length + bs.length) :
    ∃ k ≤ bs.length, (feedBytes (bs.take k) d).1.state = .seekSync0 := by
  induction bs generalizing d with
  | nil => exact absurd (length_framePrefix_le hinv) (Nat.not_le.2 hlen)
  | cons b bs ih =>
    obtain hseek | hext := feedByte_framePrefix b hinv
    · exact ⟨1, by simp, hseek⟩
    · obtain ⟨k, hk, hseek⟩ := ih (feedByte_inv b hinv) (by simp [hext] at hlen ⊢; omega)
      exact ⟨k + 1, Nat.succ_le_succ hk, hseek⟩

/-- Settles O37: in COMMAND_BYTE two bytes of the frame are in, and 37 more are longer than any frame before its last
byte. -/
theorem falseSyncConsumesAtMost37Bytes : Obligations.FalseSyncConsumesAtMost37Bytes := by
  intro bs s hinv hs hbs
  obtain ⟨k, hk, hseek⟩ := exists_take_seekSync0 bs hinv (by simp [framePrefix, hs, hbs, Config.maxLen])
  obtain ⟨r, hrun⟩ := runOps_decFeeds (bs.take k) s
  exact ⟨k, _, _, hbs ▸ hk, hrun, hseek⟩

end Sys2Proof.Machine
end

section
/-! PROOFS. Noise before a frame (42_decoder R124): without a sync pair it keeps the decoder looking for one. -/

namespace Sys2Proof.Machine

theorem noSyncPair_tail {b : Byte} {bs : List Byte} (h : noSyncPair (b :: bs) = true) : noSyncPair bs = true := by
  cases bs with
  | nil => rfl
  | cons c bs =>
    rw [noSyncPair, Bool.and_eq_true] at h
    exact h.2

theorem noSyncPair_of_suffix {as bs : List Byte} (h : as <:+ bs) (hbs : noSyncPair bs = true) :
    noSyncPair as = true := by
  obtain ⟨before, rfl⟩ := h
  induction before with
  | nil => exact hbs
  | cons b before ih => exact ih (noSyncPair_tail hbs)

/-- The decoder is looking for a sync pair (42_decoder R108, R109). -/
def seekingSync (d : Decoder) : Prop := d.state = .seekSync0 ∨ d.state = .seekSync1

/-- Only 0x55 in SEEK_SYNC1 ends the search, and the search gives no response. -/
theorem feedByte_seekingSync {b : Byte} {d : Decoder} (hs : seekingSync d)
    (hb : d.state = .seekSync1 → b ≠ Config.sync1) : seekingSync (feedByte b d).1 ∧ (feedByte b d).2 = .none := by
  obtain hs | hs := hs
  · simp only [feedByte, hs, feedSeekSync0]
    split
    · exact ⟨.inr rfl, rfl⟩
    · exact ⟨.inl hs, rfl⟩
  · simp only [feedByte, hs, feedSeekSync1, if_neg (hb hs)]
    exact ⟨.inl rfl, trivial⟩

/-- Bytes that make no sync pair, with what the decoder has taken before them, do not end the search. -/
theorem feedBytes_noise (bs : List Byte) {d : Decoder} (hinv : DecInv d) (hs : seekingSync d)
    (hno : noSyncPair (framePrefix d ++ bs) = true) :
    seekingSync (feedBytes bs d).1 ∧ (feedBytes bs d).2 = List.replicate bs.length (some .none) := by
  induction bs generalizing d with
  | nil => exact ⟨hs, rfl⟩
  | cons b bs ih =>
    have hb : d.state = .seekSync1 → b ≠ Config.sync1 := by
      rintro hs1 rfl
      simp [framePrefix, hs1, noSyncPair] at hno
    obtain ⟨hs', hresp⟩ := feedByte_seekingSync hs hb
    rw [List.append_cons] at hno
    have hno' := noSyncPair_of_suffix (List.suffix_append_self_iff.2 (framePrefix_feedByte_suffix b hinv)) hno
    obtain ⟨hend, hresps⟩ := ih (feedByte_inv b hinv) hs' hno'
    exact ⟨hend, by rw [feedBytes, hresp, hresps]; rfl⟩

/-- Noise fed in SEEK_SYNC0 leaves the decoder there unless it ends with the first sync byte. -/
theorem feedBytes_noise_state {bs : List Byte} {d : Decoder} (hinv : DecInv d) (hs : d.state = .seekSync0)
    (hno : noSyncPair bs = true) (hlast : bs.getLast? ≠ some Config.sync0) :
    (feedBytes bs d).1.state = .seekSync0 := by
  obtain ⟨hend | hend, -⟩ := feedBytes_noise bs hinv (.inl hs) (by rwa [framePrefix_of_seekSync0 hs])
  · exact hend
  · have hsuffix := framePrefix_feedBytes_suffix bs hinv
    rw [framePrefix_of_seekSync0 hs, framePrefix, hend] at hsuffix
    exact absurd (List.singleton_suffix_iff_getLast?_eq_some.1 hsuffix) hlast

/-- Noise fed in SEEK_SYNC0 gives no response but None. -/
theorem runOps_noise {bs : List Byte} {s : State} (hinv : DecInv s.dec) (hs : s.dec.state = .seekSync0)
    (hno : noSyncPair bs = true) :
    ∃ t, runOps (decFeeds bs) s = some (t, List.replicate bs.length (some .none))
      ∧ t.dec = (feedBytes bs s.dec).1 := by
  obtain ⟨-, hresp⟩ := feedBytes_noise bs hinv (.inl hs) (by rwa [framePrefix_of_seekSync0 hs])
  exact exists_runOps_decFeeds (by rw [← hresp])

/-- A second 0xAA ends the search for the pair that the first began, so the 0x55 after it is discarded
(42_decoder R109; 90_conflicts C1). -/
theorem feedBytes_doubled_sync0 {d : Decoder} (hs : d.state = .seekSync0) :
    feedBytes [Config.sync0, Config.sync0, Config.sync1] d
      = ({ d with state := .seekSync0 }, List.replicate 3 (some .none)) := by
  simp [feedBytes, feedByte, hs, feedSeekSync0, feedSeekSync1, Config.sync0, Config.sync1, List.replicate_succ]

/-- DEC.FEEDS of two byte sequences, each answered. -/
theorem runOps_decFeeds_append {as bs : List Byte} {s u t : State} {rs rs' : List (Option Resp)}
    (ha : runOps (decFeeds as) s = some (u, rs)) (hb : runOps (decFeeds bs) u = some (t, rs')) :
    runOps (decFeeds (as ++ bs)) s = some (t, rs ++ rs') := by
  rw [decFeeds, List.map_append]
  exact runOps_append_eq_some ha hb

/-- Settles O36: noise leaves the decoder in SEEK_SYNC0 for the frame after it, and after a doubled 0xAA the rest of the
frame is noise itself. -/
theorem resynchronisationAfterNoise : Obligations.ResynchronisationAfterNoise := by
  intro c q p w s hw hinv hs
  obtain ⟨t, hdoubled, ht⟩ := exists_runOps_decFeeds (feedBytes_doubled_sync0 hs)
  have hstate : t.dec.state = .seekSync0 := by rw [ht]
  refine ⟨fun noise hno hlast => ?_, ⟨t, hdoubled, hstate⟩, fun hno => ?_⟩
  · obtain ⟨u, hnoise, hu⟩ := runOps_noise hinv hs hno
    obtain ⟨r, hframe⟩ := runOps_encodeFrame hw (s := u) (hu ▸ feedBytes_inv noise hinv)
      (hu ▸ feedBytes_noise_state hinv hs hno hlast)
    have hrun := runOps_decFeeds_append hnoise hframe
    rw [← List.append_assoc, List.replicate_append_replicate, ← Nat.add_assoc] at hrun
    exact ⟨_, hrun⟩
  · have hinv' : DecInv t.dec := by rwa [ht, ← hs]
    obtain ⟨u, hrest, -⟩ := runOps_noise hinv' hstate hno
    obtain ⟨-, rfl⟩ := encodeFrame_some hw
    have hrun := runOps_decFeeds_append hdoubled hrest
    rw [List.replicate_append_replicate, Nat.add_comm] at hrun
    exact ⟨u, hrun⟩

end Sys2Proof.Machine
end

section
/-! PROOFS. The control and status operations, invalid words and the one refused step (43_control R130 to R134). -/

namespace Sys2Proof.Machine

/-! ### Invalid words -/

/-- Settles O4: an illegal word is one that no row of the opcode map matches, and all of those have one effect. -/
theorem invalidWordSetsIllAndNothingElse : Obligations.InvalidWordSetsIllAndNothingElse := by
  refine ⟨fun s w rest hin hill => ?_, by decide⟩
  have hdec : (decode w).toOption = none := (invalidWordsAreTheIllegalEncodings w).2 hill
  rw [step_of_input_word hin, wordStep_of_decode_invalid hdec]
  rfl

/-! ### The STATUS word -/

/-- A field of `n` bits put at bit `k`, above a word of value `m`, adds its value there. -/
theorem toNat_or_field {x : Half} {m n k : Nat} (v : BitVec n) (hx : x.toNat = m) (hm : m < 2 ^ k) (hk : n + k ≤ 16) :
    (x ||| (v.zeroExtend 16 <<< k)).toNat = m + v.toNat * 2 ^ k := by
  have hv : v.toNat <<< k < 2 ^ 16 :=
    calc v.toNat <<< k < 2 ^ (n + k) := Nat.shiftLeft_lt v.isLt
      _ ≤ 2 ^ 16 := Nat.pow_le_pow_right (by decide) hk
  have hext : (v.zeroExtend 16).toNat = v.toNat := BitVec.toNat_setWidth_of_le (by omega)
  calc (x ||| (v.zeroExtend 16 <<< k)).toNat
      = m ||| v.toNat <<< k := by rw [BitVec.toNat_or, BitVec.toNat_shiftLeft, hext, hx, Nat.mod_eq_of_lt hv]
    _ = v.toNat <<< k + m := by rw [Nat.or_comm, Nat.shiftLeft_add_eq_or_of_lt hm]
    _ = m + v.toNat * 2 ^ k := by rw [Nat.shiftLeft_eq, Nat.add_comm]

/-- The STATUS word as a number, field by field from bit 0 up (10_state R33). -/
theorem toNat_statusWord (s : State) :
    (statusWord s).toNat = (dstateEnc s.dec.state).toNat + (estateEnc s.enc.state).toNat * 2 ^ 4
      + (dcnt s.dec).toNat * 2 ^ 8 + s.eovr.toNat * 2 ^ 14 + s.ill.toNat * 2 ^ 15 := by
  have hd := (dstateEnc s.dec.state).isLt
  have he := (estateEnc s.enc.state).isLt
  have hc := (dcnt s.dec).isLt
  have ho := (BitVec.ofBool s.eovr).isLt
  have h0 : ((dstateEnc s.dec.state).zeroExtend 16).toNat = (dstateEnc s.dec.state).toNat :=
    BitVec.toNat_setWidth_of_le (by decide)
  have h4 := toNat_or_field (k := 4) (estateEnc s.enc.state) h0 (by omega) (by decide)
  have h8 := toNat_or_field (k := 8) (dcnt s.dec) h4 (by omega) (by decide)
  have h14 := toNat_or_field (k := 14) (BitVec.ofBool s.eovr) h8 (by omega) (by decide)
  have h15 := toNat_or_field (k := 15) (BitVec.ofBool s.ill) h14 (by omega) (by decide)
  rwa [BitVec.toNat_ofBool, BitVec.toNat_ofBool] at h15

theorem estateEnc_le (e : EncState) : (estateEnc e).toNat ≤ 8 := by
  cases e <;> decide

theorem toNat_dcnt {d : Decoder} (h : d.buf.length ≤ 32) : (dcnt d).toNat = d.buf.length := by
  rw [dcnt, BitVec.toNat_ofNat]
  exact Nat.mod_eq_of_lt (by omega)

/-- Settles O50: every field is read off the word's value. -/
theorem statusReadReturnsTheStatusWord : Obligations.StatusReadReturnsTheStatusWord := by
  refine ⟨decode_encode .statusRead, by decide, by decide, fun s hlen => ⟨statusWord s, rfl, ?_⟩⟩
  have hval := toNat_statusWord s
  rw [toNat_dcnt hlen] at hval
  have hd := (dstateEnc s.dec.state).isLt
  have he := estateEnc_le s.enc.state
  refine ⟨hval, ?_, ?_, ?_, ?_, ?_⟩
  · rw [BitVec.getLsbD, Nat.testBit_eq_decide_div_mod_eq, decide_eq_false_iff_not]
    omega
  · rw [BitVec.extractLsb'_toNat, Nat.shiftRight_eq_div_pow]
    omega
  · rw [statusWord_dcnt, toNat_dcnt hlen]
  · simp [statusWord]
  · simp [statusWord]

/-! ### The one refused step -/

/-- A refused step runs a valid word, whose operation is refused. -/
theorem exists_exec_of_step_refused {s : State} {r : Refusal} (h : step s = .refused r) :
    ∃ (w : Word) (rest : List PortInput) (i : Instr), s.input = .word w :: rest ∧ decode w = .valid i
      ∧ exec i { s with input := rest } = .refused r := by
  unfold step portStep at h
  split at h
  · cases h
  · cases h
  · next w rest hin =>
    unfold wordStep at h
    split at h
    · next i hdec => exact ⟨w, rest, i, hin, hdec, h⟩
    · cases h

/-- Settles O57: a refused step is the refusal of a decoded operation, and the word presented is that operation's. -/
theorem onlyOverlengthStartIsRefused : Obligations.OnlyOverlengthStartIsRefused := by
  refine ⟨fun a => by cases a; rfl, fun s r => ⟨fun h => ?_, ?_⟩⟩
  · obtain ⟨w, rest, i, hin, hdec, hexec⟩ := exists_exec_of_step_refused h
    obtain ⟨hr, hidle, c, q, n, rfl, hn⟩ := exec_refused hexec
    have hw := encodeOfDecodeIsTheWord w _ hdec
    exact ⟨hr, hidle, c, q, n, rest, hw ▸ hin, hn⟩
  · rintro ⟨rfl, hidle, c, q, n, rest, hin, hn⟩
    rw [stepRunsTheDecodedInstruction s _ rest _ hin (decode_encode _)]
    exact exec_encStart_of_overlength (s := { s with input := rest }) hidle c q hn

/-! ### NOP and STATUS.CLR -/

/-- Settles O49. -/
theorem nopChangesNothing : Obligations.NopChangesNothing := by
  refine ⟨fun s => rfl, fun w => ⟨fun hdec => ?_, ?_⟩, fun w hop hw => ?_⟩
  · exact (encodeOfDecodeIsTheWord w .nop hdec).symm
  · rintro rfl
    exact decode_encode .nop
  · have hval : w.toNat / 2 ^ 28 % 2 ^ 4 = 0 := by
      rw [← toNat_field, ← opField, hop]
      rfl
    have hne : w.toNat ≠ 0 := fun h => hw (BitVec.eq_of_toNat_eq h)
    have hlt := w.isLt
    rw [decode_none_iff]
    omega

/-- Settles O51. -/
theorem statusClrClearsTheStickyBits : Obligations.StatusClrClearsTheStickyBits :=
  ⟨decode_encode .statusClr, fun _ => rfl⟩

end Sys2Proof.Machine
end

section
/-! PROOFS. Holding with nothing presented, and the fault that no reachable state runs into (60_exceptions R140, R152). -/

namespace Sys2Proof.Machine

theorem step_of_input_nil {s : State} (hin : s.input = []) : step s = .next (holdStep s) := by
  simp only [step, portStep, hin]

/-- Settles O5. -/
theorem holdsItsStateWhenNothingIsPresented : Obligations.HoldsItsStateWhenNothingIsPresented :=
  fun _ hin => step_of_input_nil hin

/-- The one operation that can fault is ENC.NEXT, where the encoder has no advance (20_memory R41). -/
theorem exec_fault {i : Instr} {s : State} {f : Fault} (h : exec i s = .fault f) :
    i = .encNext ∧ encAdvance s.enc = none := by
  cases i
  case encWrbuf =>
    simp only [exec, execEncWrbuf] at h
    split at h <;> cases h
  case encStart =>
    simp only [exec, execEncStart] at h
    split at h
    · cases h
    · split at h <;> cases h
  case encNext =>
    simp only [exec, execEncNext] at h
    split at h
    · cases h
    · next hadv => exact ⟨rfl, hadv⟩
  all_goals cases h

/-- A hold, a reset and an invalid word give a next state: a step that faults runs an operation that faults. -/
theorem encAdvance_eq_none_of_step_fault {s : State} {f : Fault} (h : step s = .fault f) :
    encAdvance s.enc = none := by
  unfold step portStep at h
  split at h
  · cases h
  · cases h
  · next w rest hin =>
    unfold wordStep at h
    split at h
    · exact (exec_fault h).2
    · cases h

/-- Settles O58: a fault needs an encoder with no advance, and under the invariant there always is one. -/
theorem noStepFaultsUnderTheInvariant : Obligations.NoStepFaultsUnderTheInvariant := by
  intro s f ⟨_, henc, _⟩ hfault
  obtain ⟨e, r, hadv⟩ := encAdvance_isSome henc
  rw [encAdvance_eq_none_of_step_fault hfault] at hadv
  cases hadv

end Sys2Proof.Machine
end

section
/-! PROOFS. The reset step and the host's resynchronisation (70_reset_and_hazards R160, R164). -/

namespace Sys2Proof.Machine

/-! ### The reset step -/

theorem step_of_input_reset {s : State} {rest : List PortInput} (hin : s.input = .reset :: rest) :
    step s = .next (resetStep { s with input := rest }) := by
  simp only [step, portStep, hin]

/-- Settles O2: the next state does not depend on the registers before, and holds their values after reset. -/
theorem resetStepFromEveryState : Obligations.ResetStepFromEveryState := by
  intro s rest hin
  obtain ⟨hacc, -, hidle, -, -, -, -, hcrc, hbuf, heovr, hill, -, hdec⟩ := resetGivesEveryRegisterItsValue
  exact ⟨_, step_of_input_reset hin, rfl, hacc, hdec.symm, hidle, hcrc, hbuf, heovr, hill, rfl⟩

/-! ### Draining the encoder -/

theorem length_unsentTail_le (e : Encoder) : (unsentTail e).length ≤ e.len.toNat + 2 := by
  simp [unsentTail]

/-- What is left to transmit is at most a whole frame with the longest payload (30_encoding R62). -/
theorem length_unsent_le {e : Encoder} (hinv : EncInv e) : (unsent e).length ≤ Config.maxLen + 7 := by
  obtain ⟨-, hlen, -⟩ := hinv
  have htail := length_unsentTail_le e
  by_cases hidle : e.state = .idle
  · simp [(unsent_eq_nil_iff e).2 hidle]
  · have hmax := hlen hidle
    cases hs : e.state <;> simp only [unsent, hs, List.length_cons, List.length_nil] <;> omega

/-- The ENC.NEXT that answers None ends the draining. -/
theorem drainEncoder_of_none {s t : State} (h : exec .encNext s = .next t) (hr : t.resp = some .none) (n : Nat) :
    drainEncoder (n + 1) s = some t := by
  simp only [drainEncoder, h, hr, if_true]

/-- After an ENC.NEXT that answers anything else the draining goes on. -/
theorem drainEncoder_of_ne_none {s t : State} (h : exec .encNext s = .next t) (hr : t.resp ≠ some .none) (n : Nat) :
    drainEncoder (n + 1) s = drainEncoder n t := by
  simp only [drainEncoder, h, hr, if_false]

/-- Draining takes one ENC.NEXT a byte not yet sent and one more that answers None; it leaves the encoder idle, and
changes nothing outside the encoder and not ENC_BUF. -/
theorem drainEncoder_unsent (w : List Byte) {n : Nat} {s : State} (hinv : EncInv s.enc) (hw : unsent s.enc = w)
    (hn : w.length ≤ n) :
    ∃ e, drainEncoder (n + 1) s = some (respond .none { s with enc := e }) ∧ e.state = .idle ∧ e.buf = s.enc.buf := by
  induction w generalizing n s with
  | nil =>
    have hidle := (unsent_eq_nil_iff s.enc).1 hw
    obtain ⟨hnext, -⟩ := encNextIdleAndSyncBytes s
    exact ⟨s.enc, drainEncoder_of_none (hnext hidle) rfl n, hidle, rfl⟩
  | cons b w ih =>
    obtain ⟨n, rfl⟩ := Nat.exists_eq_add_one_of_ne_zero (Nat.ne_zero_of_lt hn)
    obtain ⟨f, hnext, hinv', hw', hbuf'⟩ := exec_encNext_unsent hinv hw
    obtain ⟨e, hdrain, hidle, hbuf⟩ :=
      ih (s := respond (.tx b) { s with enc := f }) hinv' hw' (Nat.le_of_succ_le_succ hn)
    exact ⟨e, (drainEncoder_of_ne_none hnext (by simp) _).trans hdrain, hidle, hbuf.trans hbuf'⟩

/-! ### The resynchronisation -/

/-- DEC.RESET and STATUS.CLR always complete: the resynchronisation succeeds where the draining does. -/
theorem hostResync_of_drainEncoder {s u : State}
    (h : drainEncoder 40 (respond .none { s with dec := decInit }) = some u) :
    hostResync s = some (respond .none (clearSticky u)) := by
  simp only [hostResync, exec, execDecReset, execStatusClr, h]

/-- STATUS is zero where the decoder is as after DecInit, the encoder idle and no sticky bit set (10_state R33). -/
theorem statusWord_eq_zero {s : State} (hdec : s.dec = decInit) (hidle : s.enc.state = .idle) (heovr : s.eovr = false)
    (hill : s.ill = false) : statusWord s = 0x0000#16 := by
  apply BitVec.eq_of_toNat_eq
  rw [toNat_statusWord, hdec, hidle, heovr, hill]
  rfl

/-- Settles O60: at most 39 bytes are left to transmit, so 40 ENC.NEXT drain the encoder, and neither DEC.RESET nor
STATUS.CLR touches it. -/
theorem hostResyncReachesAKnownState : Obligations.HostResyncReachesAKnownState := by
  intro s ⟨_, henc, _⟩
  obtain ⟨e, hdrain, hidle, hbuf⟩ :=
    drainEncoder_unsent _ (s := respond .none { s with dec := decInit }) henc rfl (length_unsent_le henc)
  exact ⟨_, hostResync_of_drainEncoder hdrain, rfl, hidle, statusWord_eq_zero rfl hidle rfl rfl, rfl, hbuf, rfl⟩

end Sys2Proof.Machine
end

section
/-! PROOFS. Every operation, and so every step, keeps the invariant (10_state R28, R32): the two units by their own
laws, and the canonical form of ENC_BUF by MemWrite's. -/

namespace Sys2Proof.Machine

/-- ENC.WRBUF on an idle encoder writes ENC_BUF alone, which the encoder's invariant does not read there. -/
theorem exec_encWrbuf_keeps_inv {k : BitVec 5} {b : Byte} {s t : State} (hinv : BlockInv s)
    (h : exec (.encWrbuf k b) s = .next t) : BlockInv t := by
  by_cases hidle : s.enc.state = .idle
  · rw [exec_encWrbuf_of_idle hidle] at h
    cases h
    obtain ⟨hdec, henc, hwf⟩ := hinv
    exact ⟨hdec, encInv_idle_buf henc hidle _, memWrite_wf hwf k b⟩
  · rw [exec_encWrbuf_of_busy hidle] at h
    cases h
    exact hinv

/-- ENC.START has a next state only where it is ignored or latches a length of at most 32. -/
theorem exec_encStart_keeps_inv {c q n : Byte} {s t : State} (hinv : BlockInv s)
    (h : exec (.encStart c q n) s = .next t) : BlockInv t := by
  by_cases hidle : s.enc.state = .idle
  · by_cases hn : n.toNat ≤ Config.maxLen
    · rw [exec_encStart_of_idle hidle c q hn] at h
      cases h
      obtain ⟨hdec, -, hwf⟩ := hinv
      exact ⟨hdec, startFrame_inv c q hn s.enc, hwf⟩
    · rw [exec_encStart_of_overlength hidle c q (Nat.lt_of_not_le hn)] at h
      cases h
  · rw [exec_encStart_of_busy hidle] at h
    cases h
    exact hinv

/-- ENC.NEXT advances the encoder and leaves ENC_BUF alone. -/
theorem exec_encNext_keeps_inv {s t : State} (hinv : BlockInv s) (h : exec .encNext s = .next t) : BlockInv t := by
  obtain ⟨hdec, henc, hwf⟩ := hinv
  obtain ⟨e, r, hadv⟩ := encAdvance_isSome henc
  obtain ⟨-, -, -, hbuf, -⟩ := encAdvance_frame hadv
  rw [exec_encNext_of_advance hadv] at h
  cases h
  exact ⟨hdec, encAdvance_inv henc hadv, (congrArg Memory.wf hbuf).trans hwf⟩

/-- Every operation keeps the invariant: those of CRC, STATUS and NOP touch neither unit. -/
theorem exec_keeps_inv {i : Instr} {s t : State} (hinv : BlockInv s) (h : exec i s = .next t) : BlockInv t := by
  cases i
  case encWrbuf => exact exec_encWrbuf_keeps_inv hinv h
  case encStart => exact exec_encStart_keeps_inv hinv h
  case encNext => exact exec_encNext_keeps_inv hinv h
  case decReset =>
    obtain ⟨-, hrest⟩ := hinv
    cases h
    exact ⟨decInit_inv, hrest⟩
  case decFeed b =>
    obtain ⟨hdec, hrest⟩ := hinv
    cases h
    exact ⟨feedByte_inv b hdec, hrest⟩
  all_goals cases h; exact hinv

/-- Settles O54: a hold and an invalid word touch neither unit, a reset gives the reset state's registers, and a valid
word runs its operation. -/
theorem everyStepKeepsTheInvariant : Obligations.EveryStepKeepsTheInvariant := by
  intro s t hinv hstep
  obtain ⟨-, rfl⟩ | ⟨rest, -, rfl⟩ | ⟨w, rest, i, -, -, hexec⟩ | ⟨w, rest, why, -, -, rfl⟩ := step_cases hstep
  · exact hinv
  · exact invariantHoldsAtReset
  · exact exec_keeps_inv (s := { s with input := rest }) hinv hexec
  · exact hinv

end Sys2Proof.Machine
end
